-- ==== Sys2Proof/Word.lean ====
section
/-! DEFINITION. The words of the core: octets, 5-bit symbol values and 12-bit command words
(spec/00_scope.md R9, R10; spec/30_encoding.md R80). -/

namespace Sys2Proof

/-- An octet: one byte of data or one character code, 0 to 255 (R9, R57). -/
abbrev Octet := BitVec 8

/-- The 5-bit value of a symbol, 0 to 31 (R7, R15 "Value"). -/
abbrev SymVal := BitVec 5

/-- A command word `cmd[11:0]` (R80). -/
abbrev Command := BitVec 12

end Sys2Proof
end

