-- ==== Sys2Proof/Config.lean ====
section
/-! DEFINITION. The implementation parameters of spec/00_scope.md R7, "none of these is configurable".
The widths of R8 are the widths of the types in Word.lean and of the fields in Machine/State.lean.
The one parameter the spec leaves OPEN, `LATENCY`, is no constant here: "a model takes no such argument" (R8, D1).
The spec leaves no value of this hardware undefined, so there is no opaque free value. -/

namespace Sys2Proof

/-- `SYM_BITS`: bits per symbol (R7). -/
abbrev Config.symBits : Nat := 5

/-- `BYTE_BITS`: bits per byte (R7). -/
abbrev Config.byteBits : Nat := 8

/-- `GROUP_SYMS`: symbols, and accepted characters, in a full group (R7, R26). -/
abbrev Config.groupSyms : Nat := 8

/-- `GROUP_BYTES`: bytes of a full group (R7, R60). -/
abbrev Config.groupBytes : Nat := 5

/-- `SENTINEL`: the classifier's "not part of the alphabet" value (R7, R150). -/
abbrev Config.sentinel : BitVec 6 := 32#6

end Sys2Proof
end

