-- ==== Sys2Proof/Machine/State.lean ====
section
/-! DEFINITION. The state of the core: the eight elements of spec/10_state.md R20, 67 bits in all, and beside them the
three fields that put the host's side of the two ports into the state, since a step here is a function of the state
alone (R5, R6; notes/assumptions/1.md, 2.md and 4.md). Also the response record, the host's events, the reasons a step
can stop, and the reset state. -/

namespace Sys2Proof.Machine

/-- The response record of one command, 77 bits (spec/30_encoding.md R83). -/
structure Response where
  /-- `rsp[63:0]`: the burst, 8 lanes of one octet. -/
  data : BitVec 64
  /-- `rsp[67:64]`: the number of octets in the burst. -/
  n    : BitVec 4
  /-- `rsp[73:68]`: `Classify(arg)` for `CLS`, otherwise 0. -/
  val  : BitVec 6
  /-- `rsp[74]`: `Valid(arg)` for `CLS`, otherwise 0. -/
  ok   : Bool
  /-- `rsp[75]`: this command closed a poisoned group. -/
  err  : Bool
  /-- `rsp[76]`: the opcode is reserved. -/
  ill  : Bool
deriving DecidableEq, Repr

/-- What the host can do: "issue a command, read a response, and assert reset" (R5). -/
inductive HostEvent where
  /-- The command port accepts this word (R102, R103). -/
  | issue (w : Command)
  /-- The host takes the oldest response it has not taken (R103). -/
  | read
  /-- A clock edge with `rst = 1` (R250). -/
  | reset
deriving DecidableEq, Repr

/-- The state. The first eight fields are the state elements of R20; the last three are the model's own. -/
structure State where
  /-- Encoder bit accumulator (R21). -/
  eacc   : BitVec 12
  /-- Held bits in `eacc` (R22). -/
  ebits  : BitVec 4
  /-- Symbols emitted in this encode call, modulo 8 (R23). -/
  esym   : BitVec 3
  /-- Decoder bit accumulator (R24). -/
  dacc   : BitVec 40
  /-- Held bits in `dacc` (R25). -/
  dbits  : BitVec 6
  /-- Accepted characters in the current group (R26). -/
  dcnt   : BitVec 4
  /-- The current group holds an invalid character (R27). -/
  dpois  : Bool
  /-- `DCTL[0]`: false is filter mode, true is strict mode (R28). -/
  strict : Bool
  /-- Whether the core has been reset; before that its state elements are unspecified (R35). -/
  resetSeen : Bool
  /-- What the host will do, the next event first (R5, R36). -/
  inputs : List HostEvent
  /-- The responses produced and not yet taken by the host, the oldest first (R67, R103). -/
  rsps   : List Response
deriving DecidableEq, Repr

/-- No fault: an error of this core is a bit of a response and never stops the command or the machine
(spec/00_scope.md R12; spec/60_exceptions.md R215, R216, R220), so the type has no constructor, nothing raises one, and
the question safe or unsafe does not arise. -/
inductive Fault where
deriving DecidableEq, Repr

/-- Why a step has no next state. -/
inductive Refusal where
  /-- Raised by an arm of `exec` whose instruction has no meaning yet; no arm does. Safe: nothing is claimed. -/
  | notModelled (mnemonic : String)
  /-- Raised by `step` when the host issues a command or reads a response before the first reset: "a model gives no
  meaning to a command executed before reset: it refuses" (R35). Safe: nothing is claimed of such a run. -/
  | beforeReset
deriving DecidableEq, Repr

/-- The state right after reset: every state element 0, filter mode (R34); no response is waiting (R250) and the host
has presented nothing (notes/assumptions/5.md). -/
def State.reset : State where
  eacc := 0#12
  ebits := 0#4
  esym := 0#3
  dacc := 0#40
  dbits := 0#6
  dcnt := 0#4
  dpois := false
  strict := false
  resetSeen := true
  inputs := []
  rsps := []

end Sys2Proof.Machine
end

