-- ==== Sys2Proof/Machine/Operands.lean ====
section
/-! DEFINITION. What a command reads from its operand and from the two constant tables: the mode bit of `DEC.CFG`,
the table `ALPHA` and the pad character (spec/30_encoding.md R82, R96, R97), the table `CLS`
(spec/41_classifier.md R150 to R155). The tables are constants, not state (spec/10_state.md R36). -/

namespace Sys2Proof.Machine

/-- `arg[0]`, all that `DEC.CFG` uses of its operand (R82, R177). -/
def modeBit (arg : Octet) : Bool := arg.getLsbD 0

/-- The contents of the table `ALPHA`: the characters `0` to `9`, then the letters but `I`, `L`, `O`, `U` (R96). -/
def alphaTable : List Octet :=
  [0x30#8, 0x31#8, 0x32#8, 0x33#8, 0x34#8, 0x35#8, 0x36#8, 0x37#8] ++
  [0x38#8, 0x39#8, 0x41#8, 0x42#8, 0x43#8, 0x44#8, 0x45#8, 0x46#8] ++
  [0x47#8, 0x48#8, 0x4A#8, 0x4B#8, 0x4D#8, 0x4E#8, 0x50#8, 0x51#8] ++
  [0x52#8, 0x53#8, 0x54#8, 0x56#8, 0x57#8, 0x58#8, 0x59#8, 0x5A#8]

/-- `Alpha(v)`, the read of `ALPHA` at index `v` (R50, R96). -/
def alpha (v : SymVal) : Octet :=
  alphaTable[v.toNat]'(Nat.lt_of_lt_of_le v.isLt (by decide))

/-- The pad symbol `=` (R97). -/
def padChar : Octet := 0x3D#8

/-- `c` "case-normalize[d] to uppercase": only 0x61 to 0x7A are changed (R152, D19). -/
def upperCase (c : Octet) : Octet :=
  if 0x61#8 ≤ c ∧ c ≤ 0x7A#8 then c - 0x20#8 else c

/-- The 22-letter string `ABCDEFGHJKMNPQRSTVWXYZ` of R153. -/
def letters22 : List Octet :=
  [0x41#8, 0x42#8, 0x43#8, 0x44#8, 0x45#8, 0x46#8, 0x47#8, 0x48#8, 0x4A#8, 0x4B#8, 0x4D#8] ++
  [0x4E#8, 0x50#8, 0x51#8, 0x52#8, 0x53#8, 0x54#8, 0x56#8, 0x57#8, 0x58#8, 0x59#8, 0x5A#8]

/-- `Classify(c)`, the read of `CLS` at index `c`: the four rules R151 to R154 in priority order (R51, R150). -/
def classify (c : Octet) : BitVec 6 :=
  if 0x30#8 ≤ c ∧ c ≤ 0x39#8 then (c - 0x30#8).setWidth 6
  else
    let u := upperCase c
    if u = 0x49#8 ∨ u = 0x4C#8 then 1#6
    else if u = 0x4F#8 then 0#6
    else if 0x41#8 ≤ u ∧ u ≤ 0x5A#8 ∧ u ≠ 0x55#8 then BitVec.ofNat 6 (10 + letters22.idxOf u)
    else Config.sentinel

/-- `Valid(c)`: `Classify(c) < 32` (R155). -/
def validChar (c : Octet) : Bool := decide (classify c < Config.sentinel)

end Sys2Proof.Machine
end

