-- ==== Sys2Proof/Machine/Flags.lean ====
section
/-! DEFINITION. The response record and its flags: how a burst fills the lanes, how an error is raised, the cause code,
the packed record (spec/30_encoding.md R83, R84, R88; spec/00_scope.md R12). The core's one stored flag, `dpois`, is
set by `acceptChar` and cleared by `State.clearDecoder` in Machine/Ops.lean. -/

namespace Sys2Proof.Machine

/-- The lanes of `data` as one number: octet `i` in bits `8i+7` down to `8i`, 0 above the last octet (R58, R84). -/
def lanesNat : List Octet → Nat
  | [] => 0
  | o :: rest => o.toNat + 256 * lanesNat rest

/-- The response that carries the burst `out` and reports nothing else: `n = |out|`, every other field 0 (R84). -/
def Response.ofBurst (out : List Octet) : Response where
  data := BitVec.ofNat 64 (lanesNat out)
  n := BitVec.ofNat 4 out.length
  val := 0#6
  ok := false
  err := false
  ill := false

/-- The all-zero response. -/
def Response.zero : Response := Response.ofBurst []

/-- The two errors of the core (spec/60_exceptions.md R217). -/
inductive CoreError where
  | decodeSymbolError
  | illegalCommand
deriving DecidableEq, Repr

/-- `raise`: the ONE way an error is reported. It sets the response field `err` or `ill` to 1 and does nothing else:
it "neither transfers control, saves state or stops the command" (R12, R213, R216, R220). Nothing is saved, so nothing
is restored: there is no return (R221). -/
def raiseError (e : CoreError) (r : Response) : Response :=
  match e with
  | .decodeSymbolError => { r with err := true }
  | .illegalCommand => { r with ill := true }

/-- The response of `CLS`: `val` and the flag `ok`, which is 1 when `val < 32` (R156). -/
def Response.classified (c : Octet) : Response :=
  { Response.zero with val := classify c, ok := validChar c }

/-- Lane `i` of `data`: `rsp[8i+7 : 8i]` (R83). -/
def Response.lane (r : Response) (i : Nat) : Octet := r.data.extractLsb' (8 * i) 8

/-- The burst a host reads from a response: lanes 0 to `n − 1` in order (R58). -/
def Response.burst (r : Response) : List Octet := (List.range r.n.toNat).map r.lane

/-- The cause code: (`ill`, `err`) as a 2-bit number (R88, R217). -/
def Response.cause (r : Response) : BitVec 2 := BitVec.ofBool r.ill ++ BitVec.ofBool r.err

/-- The record as it stands on the port, `rsp[76:0]` (R83). -/
def Response.pack (r : Response) : BitVec 77 :=
  BitVec.ofBool r.ill ++ (BitVec.ofBool r.err ++ (BitVec.ofBool r.ok ++ (r.val ++ (r.n ++ r.data))))

end Sys2Proof.Machine
end

