-- ==== Sys2Proof/Machine/Ops.lean ====
section
/-! DEFINITION. The operations the commands share: writing a unit's registers, producing the response, the bit
regrouping loop of both units, the padding loop, accepting a character, closing a group (spec/40_encoder.md R121, R122;
spec/42_decoder.md R171 to R173). Inside a command the accumulators are mathematical integers (spec/00_scope.md R10,
spec/10_state.md R33); a register takes the result at its own width when it is written (notes/assumptions/7.md). -/

namespace Sys2Proof.Machine

/-- Write the three encoder registers. -/
def State.setEncoder (s : State) (eacc : BitVec 12) (ebits : BitVec 4) (esym : BitVec 3) : State :=
  { s with eacc := eacc, ebits := ebits, esym := esym }

/-- Write the four decoder registers. -/
def State.setDecoder (s : State) (dacc : BitVec 40) (dbits : BitVec 6) (dcnt : BitVec 4) (dpois : Bool) : State :=
  { s with dacc := dacc, dbits := dbits, dcnt := dcnt, dpois := dpois }

/-- The cleared encoder state (R120). -/
def State.clearEncoder (s : State) : State := s.setEncoder 0#12 0#4 0#3

/-- The cleared decoder state, no group open (R173). -/
def State.clearDecoder (s : State) : State := s.setDecoder 0#40 0#6 0#4 false

/-- Write the control bit `strict` of `DCTL` (R28). -/
def State.setStrict (s : State) (m : Bool) : State := { s with strict := m }

/-- Produce the response of the command being executed: it goes behind the responses of earlier commands (R67, R103). -/
def State.respond (s : State) (r : Response) : State := { s with rsps := s.rsps ++ [r] }

/-- `while bits >= k: take the top k held bits`: the loop of both units, with `k = 5` in R121 and `k = 8` in R173, "the
same formula with 8 for 5" (D18). `fuel` bounds the turns, and `bits` is always enough. The answer is the values taken,
first taken first, and the bits still held. -/
def takeFields (k : Nat) : (fuel acc bits : Nat) → List Nat × Nat
  | 0, _, bits => ([], bits)
  | fuel + 1, acc, bits =>
    if k ≤ bits then
      let v := (acc >>> (bits - k)) &&& (2 ^ k - 1)
      let rest := takeFields k fuel acc (bits - k)
      (v :: rest.1, rest.2)
    else ([], bits)

/-- A 5-bit field as the character emitted for it: `Emit(Alpha(v))` (R121). -/
def symbolChar (v : Nat) : Octet := alpha (BitVec.ofNat 5 v)

/-- `while esym != 0: Emit('='); esym <- (esym + 1) mod 8` (R122); at most 7 turns are needed. -/
def padLoop : (fuel : Nat) → (esym : BitVec 3) → List Octet
  | 0, _ => []
  | fuel + 1, esym => if esym = 0#3 then [] else padChar :: padLoop fuel (esym + 1#3)

/-- The padding of an encode call that has emitted `esym` symbols modulo 8 (R122). -/
def padding (esym : BitVec 3) : List Octet := padLoop 7 esym

/-- The final symbol of an encode call, if bits are held: `v <- (eacc << (5 - ebits)) & 0x1F` (R122). -/
def finalSymbol (eacc : BitVec 12) (ebits : BitVec 4) : List Octet :=
  if 0 < ebits.toNat then
    [symbolChar ((eacc.toNat <<< (Config.symBits - ebits.toNat)) &&& 0x1F)]
  else []

/-- Shift the value of a valid symbol into the open group: `dacc <- (dacc << 5) | v`, `dbits <- dbits + 5` (R172). -/
def State.shiftIn (s : State) (v : BitVec 6) : State :=
  s.setDecoder (BitVec.ofNat 40 ((s.dacc.toNat <<< Config.symBits) ||| v.toNat))
    (s.dbits + BitVec.ofNat 6 Config.symBits) s.dcnt s.dpois

/-- Poison the open group: `dpois <- 1 ; dacc <- 0 ; dbits <- 0` (R172). -/
def State.poison (s : State) : State := s.setDecoder 0#40 0#6 s.dcnt true

/-- Count an accepted character: `dcnt <- dcnt + 1` (R171). -/
def State.countChar (s : State) : State := s.setDecoder s.dacc s.dbits (s.dcnt + 1#4) s.dpois

/-- Accept or skip the character of a `DEC.PUSH` (R171, R172): a valid symbol is accepted in either mode, and shifted in
unless the group is poisoned; an invalid character is accepted and poisons in strict mode, and is skipped in filter
mode. -/
def acceptChar (c : Octet) (s : State) : State :=
  if validChar c then
    if s.dpois then s.countChar else (s.shiftIn (classify c)).countChar
  else if s.strict then s.poison.countChar
  else s

/-- The bytes of a group: the whole 8-bit fields of its held bits, the first first; what is left is discarded (R173). -/
def groupBytes (dacc : BitVec 40) (dbits : BitVec 6) : List Octet :=
  (takeFields Config.byteBits dbits.toNat dacc.toNat dbits.toNat).1.map (BitVec.ofNat 8)

/-- What `Close` reports of the group: `DecodeSymbolError` if it is poisoned, else its bytes (R173, R213). -/
def closeResponse (s : State) : Response :=
  if s.dpois then raiseError .decodeSymbolError Response.zero
  else Response.ofBurst (groupBytes s.dacc s.dbits)

/-- The procedure `Close`, run by `DEC.PUSH` at the 8th accepted character and by every `DEC.FIN` (R173). -/
def closeGroup (s : State) : State := s.clearDecoder.respond (closeResponse s)

end Sys2Proof.Machine
end

