-- ==== Sys2Proof/Machine/Classifier.lean ====
section
/-! DEFINITION. The command `CLS` (spec/41_classifier.md R156). -/

namespace Sys2Proof.Machine

/-- `CLS c` (R156): answer `Classify(c)` and `Valid(c)`, change no state element. -/
def execCls (c : Octet) (s : State) : Host.Outcome State Fault Refusal :=
  .next (s.respond (Response.classified c))

end Sys2Proof.Machine
end

