-- ==== Sys2Proof/Machine/Decoder.lean ====
section
/-! DEFINITION. The decoder commands `DEC.PUSH`, `DEC.FIN`, `DEC.CLR`, `DEC.CFG` (spec/42_decoder.md R174 to R177). -/

namespace Sys2Proof.Machine

/-- `DEC.PUSH c` (R174): accept or skip the character, and close the group if it is now full. -/
def execDecPush (c : Octet) (s : State) : Host.Outcome State Fault Refusal :=
  let t := acceptChar c s
  if t.dcnt.toNat = Config.groupSyms then .next (closeGroup t)
  else .next (t.respond Response.zero)

/-- `DEC.FIN` (R175): `Close`. -/
def execDecFin (_arg : Octet) (s : State) : Host.Outcome State Fault Refusal :=
  .next (closeGroup s)

/-- `DEC.CLR` (R176): the open group abandoned, nothing emitted, no error reported, `strict` kept. -/
def execDecClr (_arg : Octet) (s : State) : Host.Outcome State Fault Refusal :=
  .next (s.clearDecoder.respond Response.zero)

/-- `DEC.CFG m` (R177): `strict <- arg[0]`, and the open group abandoned as by `DEC.CLR`. -/
def execDecCfg (arg : Octet) (s : State) : Host.Outcome State Fault Refusal :=
  .next ((s.clearDecoder.setStrict (modeBit arg)).respond Response.zero)

end Sys2Proof.Machine
end

