-- ==== Sys2Proof/Machine/Encoder.lean ====
section
/-! DEFINITION. The encoder commands `ENC.PUSH`, `ENC.FIN`, `ENC.CLR` (spec/40_encoder.md R121, R122, R123). -/

namespace Sys2Proof.Machine

/-- `ENC.PUSH b` (R121): take one byte in, emit every whole symbol now held, keep only the held bits. -/
def execEncPush (b : Octet) (s : State) : Host.Outcome State Fault Refusal :=
  let acc := (s.eacc.toNat <<< Config.byteBits) ||| b.toNat
  let bits := s.ebits.toNat + Config.byteBits
  let taken := takeFields Config.symBits bits acc bits
  .next ((s.setEncoder
      (BitVec.ofNat 12 (acc &&& ((1 <<< taken.2) - 1)))
      (BitVec.ofNat 4 taken.2)
      (s.esym + BitVec.ofNat 3 taken.1.length)).respond
    (Response.ofBurst (taken.1.map symbolChar)))

/-- `ENC.FIN` (R122): the final symbol if bits are held, the padding, and the encoder cleared. -/
def execEncFin (_arg : Octet) (s : State) : Host.Outcome State Fault Refusal :=
  let final := finalSymbol s.eacc s.ebits
  .next (s.clearEncoder.respond
    (Response.ofBurst (final ++ padding (s.esym + BitVec.ofNat 3 final.length))))

/-- `ENC.CLR` (R123): the encoder cleared, nothing emitted. -/
def execEncClr (_arg : Octet) (s : State) : Host.Outcome State Fault Refusal :=
  .next (s.clearEncoder.respond Response.zero)

end Sys2Proof.Machine
end

