-- ==== Sys2Proof/Syntax.lean ====
section
/-! DEFINITION. The command set `B32CMD` version 1 as abstract syntax: one constructor of `Instr` per row of
spec/opcode_table.json (spec/30_encoding.md R85), the mnemonics, and the assembler's terms (R100, R101). -/

namespace Sys2Proof

/-- A command. Every command word carries one octet `arg` (R80); the constructors keep all of it, the bits a command
ignores (R82) included, so that a command word and its command determine each other. -/
inductive Instr where
  /-- `ENC.PUSH b`, R121: `arg` is the data byte. -/
  | encPush (arg : Octet)
  /-- `ENC.FIN`, R122: `arg` is ignored. -/
  | encFin (arg : Octet)
  /-- `ENC.CLR`, R123: `arg` is ignored. -/
  | encClr (arg : Octet)
  /-- `DEC.PUSH c`, R174: `arg` is the character. -/
  | decPush (arg : Octet)
  /-- `DEC.FIN`, R175: `arg` is ignored. -/
  | decFin (arg : Octet)
  /-- `DEC.CLR`, R176: `arg` is ignored. -/
  | decClr (arg : Octet)
  /-- `CLS c`, R156: `arg` is the character. -/
  | cls (arg : Octet)
  /-- `DEC.CFG m`, R177: `m = arg[0]`, `arg[7:1]` is ignored. -/
  | decCfg (arg : Octet)
deriving DecidableEq, Repr

/-- The eight mnemonics of R85. -/
inductive Mnemonic where
  | encPush | encFin | encClr | decPush | decFin | decClr | cls | decCfg
deriving DecidableEq, Repr

/-- The spelling of a mnemonic in spec/opcode_table.json. -/
def Mnemonic.text : Mnemonic → String
  | .encPush => "ENC.PUSH"
  | .encFin => "ENC.FIN"
  | .encClr => "ENC.CLR"
  | .decPush => "DEC.PUSH"
  | .decFin => "DEC.FIN"
  | .decClr => "DEC.CLR"
  | .cls => "CLS"
  | .decCfg => "DEC.CFG"

/-- The mnemonic of a command. -/
def Instr.mnemonic : Instr → Mnemonic
  | .encPush _ => .encPush
  | .encFin _ => .encFin
  | .encClr _ => .encClr
  | .decPush _ => .decPush
  | .decFin _ => .decFin
  | .decClr _ => .decClr
  | .cls _ => .cls
  | .decCfg _ => .decCfg

/-- The octet `arg` a command carries (R80). -/
def Instr.arg : Instr → Octet
  | .encPush a => a
  | .encFin a => a
  | .encClr a => a
  | .decPush a => a
  | .decFin a => a
  | .decClr a => a
  | .cls a => a
  | .decCfg a => a

/-- An operand of a listing: "a numeral 0 to 255 or one character in single quotes" (R100). -/
inductive AsmOperand where
  | numeral (n : Nat)
  | char (code : Octet)
deriving DecidableEq, Repr

/-- One line of a listing: a mnemonic followed by its operand, if it has one (R100). -/
structure AsmLine where
  mnemonic : Mnemonic
  operand  : Option AsmOperand
deriving DecidableEq, Repr

/-- The five pseudo-instructions of R101. -/
inductive Pseudo where
  /-- `ENCODE "s"`. -/
  | encode (text : List Octet)
  /-- `DECODE "s"`. -/
  | decode (text : List Octet)
  /-- `DEC.FILTER`. -/
  | decFilter
  /-- `DEC.STRICT`. -/
  | decStrict
  /-- `VALID c`. -/
  | valid (code : Octet)
deriving DecidableEq, Repr

end Sys2Proof
end

