-- ==== Sys2Proof/Machine/Dispatch.lean ====
section
/-! DEFINITION. One arm per command: the meaning of each row of spec/opcode_table.json. -/

namespace Sys2Proof.Machine

/-- The effect and the response of one command (spec/00_scope.md R5, R6). -/
def exec (i : Instr) (s : State) : Host.Outcome State Fault Refusal :=
  match i with
  | .encPush arg => Sys2Proof.Machine.execEncPush arg s
  | .encFin arg => Sys2Proof.Machine.execEncFin arg s
  | .encClr arg => Sys2Proof.Machine.execEncClr arg s
  | .decPush arg => Sys2Proof.Machine.execDecPush arg s
  | .decFin arg => Sys2Proof.Machine.execDecFin arg s
  | .decClr arg => Sys2Proof.Machine.execDecClr arg s
  | .cls arg => Sys2Proof.Machine.execCls arg s
  | .decCfg arg => Sys2Proof.Machine.execDecCfg arg s

end Sys2Proof.Machine
end

