-- ==== Sys2Proof/WellFormed.lean ====
section
/-! DEFINITION. Well-formed commands. Every octet is a legal `arg` of every command (spec/30_encoding.md R82, R86), so
nothing here says which commands the core executes: it executes all of them. What is checked is the form in which an
assembler writes a command: "Ignored bits have no effect ... an assembler writes them as 0" (R82, R100); see
notes/assumptions/9.md. -/

namespace Sys2Proof

/-- The bits of `arg` the command ignores, in their places (R82): all of them for `ENC.FIN`, `ENC.CLR`, `DEC.FIN` and
`DEC.CLR`, `arg[7:1]` for `DEC.CFG`, none for `ENC.PUSH`, `DEC.PUSH` and `CLS`. -/
def Instr.ignoredBits : Instr → Octet
  | .encPush _ => 0x00#8
  | .encFin a => a
  | .encClr a => a
  | .decPush _ => 0x00#8
  | .decFin a => a
  | .decClr a => a
  | .cls _ => 0x00#8
  | .decCfg a => a &&& 0xFE#8

/-- The command is as an assembler writes it: its ignored operand bits are 0 (R82, R100). -/
def Instr.wellFormed (i : Instr) : Bool := i.ignoredBits == 0x00#8

/-- An operand of a listing is a numeral 0 to 255 or one character (R100). -/
def AsmOperand.wellFormed : AsmOperand → Bool
  | .numeral n => n ≤ 255
  | .char _ => true

/-- Whether a mnemonic is written with an operand (R100): the four commands that ignore all of `arg` are not. -/
def Mnemonic.takesOperand : Mnemonic → Bool
  | .encPush => true
  | .encFin => false
  | .encClr => false
  | .decPush => true
  | .decFin => false
  | .decClr => false
  | .cls => true
  | .decCfg => true

/-- A line of a listing has an operand exactly when its mnemonic takes one, and a legal one (R100). -/
def AsmLine.wellFormed (l : AsmLine) : Bool :=
  match l.operand with
  | none => !l.mnemonic.takesOperand
  | some o => l.mnemonic.takesOperand && o.wellFormed

end Sys2Proof
end

