-- ==== Sys2Proof/Decode.lean ====
section
/-! DEFINITION. The command decoder, total on all 4096 words and rejecting by name, and the encoder
(spec/30_encoding.md R80, R81, R85, R86, R100, R101). -/

namespace Sys2Proof

/-- One row of the opcode map: `pattern` ("match") and `mask` are over the 12-bit command word (R85). -/
structure OpcodeRow where
  mnemonic : Mnemonic
  pattern  : Command
  mask     : Command
deriving DecidableEq, Repr

/-- The opcode map of R85, its rows in the order of the opcode numbers. -/
def opcodeMap : List OpcodeRow :=
  [ ⟨.encPush, 0x100#12, 0xF00#12⟩,
    ⟨.encFin,  0x200#12, 0xF00#12⟩,
    ⟨.encClr,  0x300#12, 0xF00#12⟩,
    ⟨.decPush, 0x500#12, 0xF00#12⟩,
    ⟨.decFin,  0x600#12, 0xF00#12⟩,
    ⟨.decClr,  0x700#12, 0xF00#12⟩,
    ⟨.cls,     0x800#12, 0xF00#12⟩,
    ⟨.decCfg,  0x900#12, 0xF00#12⟩ ]

/-- Why a word is no command: its opcode is reserved (R86). -/
inductive Reject where
  | reservedOpcode (op : BitVec 4)
deriving DecidableEq, Repr

/-- The field `op = cmd[11:8]` (R80). -/
def opField (w : Command) : BitVec 4 := w.extractLsb' 8 4

/-- The field `arg = cmd[7:0]` (R80). -/
def argField (w : Command) : Octet := w.extractLsb' 0 8

/-- A word belongs to a row of the map when its bits under `mask` are `pattern`. -/
def OpcodeRow.covers (r : OpcodeRow) (w : Command) : Bool := w &&& r.mask == r.pattern

/-- The command with a given mnemonic and `arg`. -/
def Mnemonic.withArg : Mnemonic → Octet → Instr
  | .encPush, a => .encPush a
  | .encFin, a => .encFin a
  | .encClr, a => .encClr a
  | .decPush, a => .decPush a
  | .decFin, a => .decFin a
  | .decClr, a => .decClr a
  | .cls, a => .cls a
  | .decCfg, a => .decCfg a

/-- "Decoding a command is: look `op` up in the table of rule R85; nothing else in the word takes part in selecting the
command" (R81). A word no row matches has a reserved opcode (R86). -/
def decode (w : Command) : Except Reject Instr :=
  match opcodeMap.find? (·.covers w) with
  | some r => .ok (r.mnemonic.withArg (argField w))
  | none => .error (.reservedOpcode (opField w))

/-- The opcode number of a mnemonic (R85). -/
def Mnemonic.opcode : Mnemonic → BitVec 4
  | .encPush => 0x1#4
  | .encFin => 0x2#4
  | .encClr => 0x3#4
  | .decPush => 0x5#4
  | .decFin => 0x6#4
  | .decClr => 0x7#4
  | .cls => 0x8#4
  | .decCfg => 0x9#4

/-- The word with the given fields: "`(op << 8) | arg`" (R100). -/
def commandWord (op : BitVec 4) (arg : Octet) : Command :=
  (op.setWidth 12 <<< 8) ||| arg.setWidth 12

/-- The command word of a command (R85, R100). -/
def encode (i : Instr) : Command := commandWord i.mnemonic.opcode i.arg

/-- The octet an operand stands for (R100); none for a numeral above 255. -/
def AsmOperand.octet : AsmOperand → Option Octet
  | .numeral n => if n ≤ 255 then some (BitVec.ofNat 8 n) else none
  | .char c => some c

/-- The command of a line of a listing; "a command with no operand assembles with `arg = 0`" (R100). A line that is not
well formed has none. -/
def AsmLine.assemble (l : AsmLine) : Option Instr :=
  match l.mnemonic.takesOperand, l.operand with
  | true, some o => o.octet.map l.mnemonic.withArg
  | false, none => some (l.mnemonic.withArg 0x00#8)
  | true, none => none
  | false, some _ => none

/-- The expansion of a pseudo-instruction (R101). -/
def Pseudo.expand : Pseudo → List Instr
  | .encode text => text.map .encPush ++ [.encFin 0x00#8]
  | .decode text => text.map .decPush ++ [.decFin 0x00#8]
  | .decFilter => [.decCfg 0x00#8]
  | .decStrict => [.decCfg 0x01#8]
  | .valid c => [.cls c]

/-- The command word in a word of the opcode table: the low `nbits` bits of `w`, of which the command port carries the
low 12 (R80; notes/assumptions/8.md). -/
def commandOfTableWord (nbits w : Nat) : Command := BitVec.ofNat 12 (w % 2 ^ nbits)

/-- What the decoder reads from a word of the opcode table; none where it refuses. -/
def decodeTableWord (nbits w : Nat) : Option Instr :=
  match decode (commandOfTableWord nbits w) with
  | .ok i => some i
  | .error _ => none

end Sys2Proof
end

