-- ==== Sys2Proof/Machine/Port.lean ====
section
/-! DEFINITION. The two ports and the reset pin at transaction level: what the host's next event is, what an illegal
command, a read of a response and a reset do, and how a command word is presented (spec/30_encoding.md R86, R102, R103;
spec/60_exceptions.md R216; spec/70_reset_and_hazards.md R250; spec/10_state.md R35). Machine/Step.lean only calls
what stands here and `exec`. -/

namespace Sys2Proof.Machine

/-- The host's next event has been consumed. -/
def State.advance (s : State) (rest : List HostEvent) : State := { s with inputs := rest }

/-- A command with a reserved opcode: `raise IllegalCommand`, no state element changes (R86, R216). -/
def illegalCommand (s : State) : State := s.respond (raiseError .illegalCommand Response.zero)

/-- The reset event (R250): every state element takes its reset value, the responses not yet taken are lost; what the
host does next is its own. -/
def applyReset (s : State) : State := { State.reset with inputs := s.inputs }

/-- The host takes the oldest response; with none waiting (`rsp_valid = 0`) nothing is taken (R103). -/
def takeResponse (s : State) : State := { s with rsps := s.rsps.tail }

/-- What the next step is about. -/
inductive Action where
  /-- The host presents nothing: the core is idle (R5, R226). -/
  | idle
  /-- A legal command to execute, in this state. -/
  | execute (i : Instr) (s : State)
  /-- An event that ends in this state. -/
  | become (s : State)
  /-- A command or a read before the first reset (R35). -/
  | unreset
deriving DecidableEq, Repr

/-- What the core does with the host's event `e`, already consumed. -/
def respondTo (e : HostEvent) (s : State) : Action :=
  match e with
  | .reset => .become (applyReset s)
  | .read => if s.resetSeen then .become (takeResponse s) else .unreset
  | .issue w =>
    if s.resetSeen then
      match decode w with
      | .ok i => .execute i s
      | .error _ => .become (illegalCommand s)
    else .unreset

/-- What the next step is about, from the head of the host's events. -/
def nextAction (s : State) : Action :=
  match s.inputs with
  | [] => .idle
  | e :: rest => respondTo e (s.advance rest)

/-- The host presents the command word `w` before anything else it does. -/
def presentCommand (s : State) (w : Command) : State := { s with inputs := .issue w :: s.inputs }

end Sys2Proof.Machine
end

