-- ==== Sys2Proof/Machine/Step.lean ====
section
/-! DEFINITION. One step: the host's next event, from start to end (spec/00_scope.md R5, spec/20_memory.md R65, R67). -/

namespace Sys2Proof.Machine

/-- One step of the machine. -/
def step (s : State) : Host.Outcome State Fault Refusal :=
  match nextAction s with
  | .idle => .next s
  | .execute i t => exec i t
  | .become t => .next t
  | .unreset => .refused .beforeReset

/-- The state in which the next step takes the word `w` of the opcode table from the command port. The core fetches
nothing (spec/10_state.md R29): to load an instruction is to have the host issue it next (notes/assumptions/5.md). -/
def State.withFetchWord (s : State) (nbits w : Nat) : State :=
  presentCommand s (commandOfTableWord nbits w)

end Sys2Proof.Machine
end

