-- ==== Sys2Proof/Machine/WholeCall.lean ====
section
/-! DEFINITION. The functions the spec says sequences of commands compute: `Enc` (spec/40_encoder.md R124), `Bytes` and
`DecCall` (spec/42_decoder.md R180, R181), the windows of R183, the encoder with an accumulator of another width that
R133 compares the core with, and the running of a sequence of commands. Each is written from its own rule over the
string of bits of spec/20_memory.md R55 and R56, not from the commands' pseudocode. -/

namespace Sys2Proof.Machine

/-- The low `w` bits of `v` as a string, the most significant first (R55, R56). -/
def bitString : (w v : Nat) → List Bool
  | 0, _ => []
  | w + 1, v => v.testBit w :: bitString w v

/-- The number a string of bits spells, the first bit the most significant. -/
def bitsValue (bits : List Bool) : Nat := bits.foldl (fun acc b => 2 * acc + b.toNat) 0

/-- The `j`-th field of `k` bits of a string, cut from its start (R55, R56). -/
def bitField (k : Nat) (bits : List Bool) (j : Nat) : Nat := bitsValue ((bits.drop (k * j)).take k)

/-- The bit string of a sequence of bytes (R55). -/
def byteBits (bytes : List Octet) : List Bool := bytes.flatMap fun b => bitString 8 b.toNat

/-- The bit string of a sequence of symbol values (R56). -/
def symbolBits (values : List SymVal) : List Bool := values.flatMap fun v => bitString 5 v.toNat

/-- `m = ceil(8L / 5)`, the alphabet symbols of the encoding of `L` bytes (R124). -/
def symbolCount (len : Nat) : Nat := (8 * len + 4) / 5

/-- `Enc(B)` (R124). -/
def encText (bytes : List Octet) : List Octet :=
  let m := symbolCount bytes.length
  let bits := byteBits bytes ++ List.replicate (5 * m - 8 * bytes.length) false
  (List.range m).map (fun j => symbolChar (bitField 5 bits j)) ++
    List.replicate ((8 - m % 8) % 8) padChar

/-- `Bytes(V)` (R180). -/
def bytesOf (values : List SymVal) : List Octet :=
  (List.range (5 * values.length / 8)).map fun i => BitVec.ofNat 8 (bitField 8 (symbolBits values) i)

/-- The values of the valid characters of a text, in order (R182). -/
def symbolValues (text : List Octet) : List SymVal :=
  (text.filter validChar).map fun c => (classify c).setWidth 5

/-- `DecCall(T)`: the bytes, and whether the call succeeds (R181). -/
def decCall (text : List Octet) : List Octet × Bool :=
  if text.all validChar then (bytesOf (symbolValues text), true) else ([], false)

/-- The `k`-th window of 8 consecutive characters of a text; the last may be shorter, or empty (R183). -/
def window (text : List Octet) (k : Nat) : List Octet := (text.drop (8 * k)).take 8

/-- Execute commands one after another (spec/20_memory.md R67); stops at a fault or a refusal. -/
def runCommands : List Instr → State → Host.Outcome State Fault Refusal
  | [], s => .next s
  | i :: rest, s =>
    match exec i s with
    | .next t => runCommands rest t
    | .fault r => .fault r
    | .refused r => .refused r

/-- The encoder of R133: its accumulator has some other width and is never masked. -/
structure WideEncoder where
  acc  : Nat
  bits : Nat
  sym  : Nat
deriving DecidableEq, Repr

/-- A value in an accumulator `width` bits wide, or unbounded where there is no width (R133). -/
def holdIn (width : Option Nat) (v : Nat) : Nat :=
  match width with
  | none => v
  | some w => v % 2 ^ w

/-- "accumulator = accumulator*256 + byte", then the loop, with no masking (R133). -/
def widePush (width : Option Nat) (b : Octet) (e : WideEncoder) : WideEncoder × List Octet :=
  let acc := holdIn width (e.acc * 256 + b.toNat)
  let taken := takeFields 5 (e.bits + 8) acc (e.bits + 8)
  (⟨acc, taken.2, (e.sym + taken.1.length) % 8⟩, taken.1.map symbolChar)

/-- The end of a call of that encoder; the mask is "applied after the left shift, as written" (R133). -/
def wideFin (width : Option Nat) (e : WideEncoder) : List Octet :=
  let final :=
    if 0 < e.bits then [symbolChar (holdIn width (e.acc <<< (5 - e.bits)) &&& 0x1F)] else []
  final ++ List.replicate ((8 - (e.sym + final.length) % 8) % 8) padChar

/-- The outputs of that encoder in one call, command by command (R133). -/
def wideCall (width : Option Nat) : List Octet → WideEncoder → List (List Octet)
  | [], e => [wideFin width e]
  | b :: rest, e => (widePush width b e).2 :: wideCall width rest (widePush width b e).1

end Sys2Proof.Machine
end

