-- ==== Sys2Proof/Safety.lean ====
section
/-! DEFINITION. What a good state is, in the terms the statements use: the invariants of spec/10_state.md R31 and R32,
the cleared states of R120 and R173, a legal response (spec/30_encoding.md R84, R88). -/

namespace Sys2Proof.Machine

/-- The encoder invariant of R31: `0 ≤ ebits ≤ 4`, `0 ≤ eacc < 2^ebits`, `0 ≤ esym ≤ 7`. -/
abbrev State.EncInv (s : State) : Prop :=
  s.ebits.toNat ≤ 4 ∧ s.eacc.toNat < 2 ^ s.ebits.toNat ∧ s.esym.toNat ≤ 7

/-- The second part of R31: after some number `k` of bytes, which only counts modulo 5,
`ebits = (8 × k) mod 5` and `esym = floor(8 × k / 5) mod 8`. -/
abbrev State.EncPhase (s : State) : Prop :=
  ∃ k, k < 5 ∧ s.ebits.toNat = (8 * k) % 5 ∧ s.esym.toNat = (8 * k / 5) % 8

/-- The decoder invariant of R32. -/
abbrev State.DecInv (s : State) : Prop :=
  s.dcnt.toNat ≤ 7 ∧
  (s.dbits.toNat % 5 = 0 ∧ s.dbits.toNat ≤ 35) ∧
  s.dacc.toNat < 2 ^ s.dbits.toNat ∧
  (s.dpois = false → s.dbits.toNat = 5 * s.dcnt.toNat) ∧
  (s.dpois = true → 1 ≤ s.dcnt.toNat ∧ s.dbits.toNat = 0 ∧ s.dacc.toNat = 0) ∧
  (s.strict = false → s.dpois = false)

/-- The response `r` carries the burst `out` and no classification: `n = |out|`, lane `i` holds `out[i]` and every lane
above the burst holds 0 (R83, R84); `err` is as given and `ill = 0`. It fixes every field of `r`. -/
abbrev Response.Carries (r : Response) (out : List Octet) (err : Bool) : Prop :=
  r.n.toNat = out.length ∧ (∀ i, i < 8 → r.lane i = out.getD i 0x00#8) ∧
  r.val = 0#6 ∧ r.ok = false ∧ r.err = err ∧ r.ill = false

/-- A response as R84 and R88 bound it: at most 7 octets, every lane at or above `n` zero, never both errors, and no
octets with an error (R213, R216). -/
abbrev Response.Legal (r : Response) : Prop :=
  r.n.toNat ≤ 7 ∧ (∀ i, i < 8 → r.n.toNat ≤ i → r.lane i = 0#8) ∧
  r.cause ≠ 3#2 ∧ (r.cause ≠ 0#2 → r.n = 0#4 ∧ r.data = 0#64)

/-- What holds of every state of a core that has been reset. Before the first reset its elements are unspecified (R35). -/
abbrev State.Sound (s : State) : Prop :=
  s.resetSeen = true →
    s.EncInv ∧ s.EncPhase ∧ s.DecInv ∧ ∀ r ∈ s.rsps, r.Legal

/-- The cleared encoder state (R120). -/
abbrev State.EncCleared (s : State) : Prop := s.eacc = 0#12 ∧ s.ebits = 0#4 ∧ s.esym = 0#3

/-- The cleared decoder state: no group open (R173). -/
abbrev State.DecCleared (s : State) : Prop :=
  s.dacc = 0#40 ∧ s.dbits = 0#6 ∧ s.dcnt = 0#4 ∧ s.dpois = false

/-- The two states hold the same in the encoder (R37). -/
abbrev State.SameEncoder (s t : State) : Prop :=
  t.eacc = s.eacc ∧ t.ebits = s.ebits ∧ t.esym = s.esym

/-- The two states hold the same in the decoder's four group registers (R37). -/
abbrev State.SameDecoder (s t : State) : Prop :=
  t.dacc = s.dacc ∧ t.dbits = s.dbits ∧ t.dcnt = s.dcnt ∧ t.dpois = s.dpois

/-- The two states hold the same on the host's side: its future events, and that the core has been reset. -/
abbrev State.SameHost (s t : State) : Prop := t.inputs = s.inputs ∧ t.resetSeen = s.resetSeen

/-- A command of the unit `base32_encoder` (R85). -/
def isEncoderCommand : Instr → Bool
  | .encPush _ => true
  | .encFin _ => true
  | .encClr _ => true
  | .decPush _ => false
  | .decFin _ => false
  | .decClr _ => false
  | .cls _ => false
  | .decCfg _ => false

end Sys2Proof.Machine
end

