-- ==== Sys2Proof/Certificates/Slice0/Obligations.lean ====
section
/-! DEFINITION. The statements for the provers, in the order of OBLIGATIONS.json: encodings; reset, ports and steps; the
tables; the encoder; the decoder; whole-machine rules; whole calls. Rule numbers R<n> are those of spec/.

In all of them `rsps := s.rsps ++ [r]` says that the command's response is `r`: the place where a response stands in the
state, behind those of earlier commands, is the model's (notes/assumptions/2.md); what `r` holds is the spec's. `exec`
and `runCommands` are the meanings of commands the port has accepted, and no meaning looks at `rsps`; they say nothing of
when a command is accepted. That the port accepts one while a response waits is the model's choice (the same entry), and
only the statements about `step` on an issued word and about the port's runs speak of it. The events in `inputs` are
notes/assumptions/1.md, the flag `resetSeen` is notes/assumptions/4.md. -/

open Sys2Proof Sys2Proof.Machine

/-! ### Encodings -/

/-- Words written out from R85 decode to the commands they stand for, and reserved words (R86) to none. -/
def Obligations.SpecWordsDecode : Prop :=
  decode 0x166#12 = .ok (.encPush 0x66#8) ∧ decode 0x2FF#12 = .ok (.encFin 0xFF#8) ∧
  decode 0x300#12 = .ok (.encClr 0x00#8) ∧ decode 0x543#12 = .ok (.decPush 0x43#8) ∧
  decode 0x600#12 = .ok (.decFin 0x00#8) ∧ decode 0x77F#12 = .ok (.decClr 0x7F#8) ∧
  decode 0x861#12 = .ok (.cls 0x61#8) ∧ decode 0x901#12 = .ok (.decCfg 0x01#8) ∧
  decode 0x000#12 = .error (.reservedOpcode 0x0#4) ∧ decode 0x4AB#12 = .error (.reservedOpcode 0x4#4) ∧
  decode 0xFFF#12 = .error (.reservedOpcode 0xF#4)

/-- R81: the number `op`, the word divided by 256, alone selects the command, by the opcode map of R85; every opcode
outside the map is reserved (R86). -/
def Obligations.OpAloneSelectsTheCommand : Prop :=
  ∀ w : Command,
    let op := w.toNat / 256
    let arg := BitVec.ofNat 8 (w.toNat % 256)
    (op = 1 → decode w = .ok (.encPush arg)) ∧ (op = 2 → decode w = .ok (.encFin arg)) ∧
    (op = 3 → decode w = .ok (.encClr arg)) ∧ (op = 5 → decode w = .ok (.decPush arg)) ∧
    (op = 6 → decode w = .ok (.decFin arg)) ∧ (op = 7 → decode w = .ok (.decClr arg)) ∧
    (op = 8 → decode w = .ok (.cls arg)) ∧ (op = 9 → decode w = .ok (.decCfg arg)) ∧
    (op = 0 ∨ op = 4 ∨ 10 ≤ op → decode w = .error (.reservedOpcode (BitVec.ofNat 4 op)))

/-- Decoding and encoding are inverse to each other on all commands, ignored operand bits included, and on all words
that decode. -/
def Obligations.DecodeEncodeAgree : Prop :=
  (∀ i : Instr, decode (encode i) = .ok i) ∧ (∀ (w : Command) (i : Instr), decode w = .ok i → encode i = w)

/-- A line of a listing assembles exactly when it is well formed (R100), to a word `(op << 8) | arg` whose `arg` is the
operand, or 0 where there is none. -/
def Obligations.ListingsAssemble : Prop :=
  ∀ l : AsmLine,
    (l.wellFormed = true ↔ ∃ i, l.assemble = some i) ∧
    ∀ i, l.assemble = some i →
      ∃ arg : Octet, (encode i).toNat = l.mnemonic.opcode.toNat * 256 + arg.toNat ∧
        (∀ n, l.operand = some (.numeral n) → arg.toNat = n) ∧
        (∀ c, l.operand = some (.char c) → arg = c) ∧
        (l.operand = none → arg = 0#8)

/-! ### Reset, ports, steps -/

/-- R34: after reset every state element is 0. -/
def Obligations.ResetClearsEveryElement : Prop :=
  State.reset.eacc = 0#12 ∧ State.reset.ebits = 0#4 ∧ State.reset.esym = 0#3 ∧ State.reset.dacc = 0#40 ∧
  State.reset.dbits = 0#6 ∧ State.reset.dcnt = 0#4 ∧ State.reset.dpois = false ∧ State.reset.strict = false

/-- The reset state is a good one. -/
def Obligations.ResetStateIsSound : Prop := State.reset.Sound

/-- Every step keeps the encoder and decoder invariants of R31 and R32 and the bounds of R84 and R88 on the waiting
responses. -/
def Obligations.StepKeepsSound : Prop := ∀ s t : State, s.Sound → step s = .next t → t.Sound

/-- A step in which the host issues a word that decodes to `i` is `exec i`, in the state in which the event has been
consumed. That the host's events stand in the state, that the word is taken although responses may wait, and the flag
`resetSeen` are the model's choices (notes/assumptions/1.md, 2.md, 4.md). -/
def Obligations.StepRunsTheDecodedCommand : Prop :=
  ∀ (s : State) (w : Command) (i : Instr) (rest : List HostEvent),
    s.resetSeen = true → s.inputs = .issue w :: rest → decode w = .ok i →
      step s = exec i { s with inputs := rest }

/-- R86: a reserved opcode changes no state element and answers `ill = 1`, all else 0, whatever `arg` is. That the word is
taken although responses may wait, and the fields `inputs`, `rsps` and `resetSeen`, are the model's choices
(notes/assumptions/1.md, 2.md, 4.md). -/
def Obligations.ReservedOpcodeOnlyReportsIll : Prop :=
  ∀ (s : State) (w : Command) (rest : List HostEvent),
    s.resetSeen = true → s.inputs = .issue w :: rest →
    (w.toNat / 256 = 0 ∨ w.toNat / 256 = 4 ∨ 10 ≤ w.toNat / 256) →
      step s = .next { s with
        inputs := rest
        rsps := s.rsps ++ [{ data := 0#64, n := 0#4, val := 0#6, ok := false, err := false, ill := true }] }

/-- R250 at the level of the model: from any state, reset or not, the reset event sets every element to its reset
value and loses the responses not yet taken. What the host does next (`inputs`) is no state of the core
(notes/assumptions/1.md). -/
def Obligations.ResetEventSetsTheResetState : Prop :=
  ∀ (s : State) (rest : List HostEvent), s.inputs = .reset :: rest →
    ∃ t, step s = .next t ∧ t.eacc = 0#12 ∧ t.ebits = 0#4 ∧ t.esym = 0#3 ∧ t.dacc = 0#40 ∧ t.dbits = 0#6 ∧
      t.dcnt = 0#4 ∧ t.dpois = false ∧ t.strict = false ∧ t.resetSeen = true ∧ t.rsps = [] ∧ t.inputs = rest

/-- R35: a command before the first reset is refused. -/
def Obligations.CommandBeforeResetIsRefused : Prop :=
  ∀ (s : State) (w : Command) (rest : List HostEvent),
    s.resetSeen = false → s.inputs = .issue w :: rest → step s = .refused .beforeReset

/-- The host takes the oldest response, once, and nothing else changes; with the host silent nothing changes at all.
That a read with no response waiting is a complete no-op is the model's choice (notes/assumptions/6.md). -/
def Obligations.ReadTakesTheOldestResponse : Prop :=
  (∀ (s : State) (r : Response) (rs : List Response) (rest : List HostEvent),
    s.resetSeen = true → s.inputs = .read :: rest → s.rsps = r :: rs →
      step s = .next { s with inputs := rest, rsps := rs }) ∧
  (∀ (s : State) (rest : List HostEvent),
    s.resetSeen = true → s.inputs = .read :: rest → s.rsps = [] → step s = .next { s with inputs := rest }) ∧
  (∀ s : State, s.inputs = [] → step s = .next s)

/-- Every one of the 4096 words, legal or not, is answered by exactly one response (R83, R86), behind those of earlier
commands (R67), and the machine goes on: it neither faults nor refuses. THE MODEL'S CHOICE, and no rule's: that the word
is taken at once also from a state in which responses still wait (notes/assumptions/2.md, DESIGN CHOICE, unsafe for a
claim about when a command is accepted). The clauses on `inputs` and `resetSeen` are about the model's own fields
(notes/assumptions/1.md and 4.md, DESIGN CHOICE). -/
def Obligations.EveryWordGetsOneResponse : Prop :=
  ∀ (s : State) (w : Command) (rest : List HostEvent),
    s.resetSeen = true → s.inputs = .issue w :: rest →
      ∃ t r, step s = .next t ∧ t.rsps = s.rsps ++ [r] ∧ t.inputs = rest ∧ t.resetSeen = true

/-- Commands presented at the port run as the sequence of their meanings, each whole (R65), in order and seeing the state
the one before left (R67), and what the host does afterwards is still to come. THE MODEL'S CHOICE, and no rule's: that
they run with no read between them, so that command `k+1` is accepted while the response to command `k`, or an earlier one,
still waits (notes/assumptions/2.md, DESIGN CHOICE, unsafe for a claim about when a command is accepted). That the host's
events are a list in the state is notes/assumptions/1.md, the flag `resetSeen` notes/assumptions/4.md (DESIGN CHOICE). -/
def Obligations.PresentedCommandsRunInOrder : Prop :=
  ∀ (is : List Instr) (s : State) (rest : List HostEvent), s.resetSeen = true →
    Host.Core.run Sys2Proof.core is.length
        { s with inputs := is.map (fun i => .issue (encode i)) ++ rest } =
      runCommands is { s with inputs := rest }

/-- R83: the fields of a response stand at their places in the packed record, R88: the cause code is `rsp[76:75]`. -/
def Obligations.RecordLayout : Prop :=
  ∀ r : Response,
    r.pack.extractLsb' 0 64 = r.data ∧ r.pack.extractLsb' 64 4 = r.n ∧ r.pack.extractLsb' 68 6 = r.val ∧
    r.pack.getLsbD 74 = r.ok ∧ r.pack.getLsbD 75 = r.err ∧ r.pack.getLsbD 76 = r.ill ∧
    r.pack.extractLsb' 75 2 = r.cause ∧
    ∀ i, i < 8 → r.pack.extractLsb' (8 * i) 8 = r.lane i

/-! ### The tables -/

/-- R96: the alphabet, by its runs of consecutive codes. -/
def Obligations.AlphabetTable : Prop :=
  ∀ v : SymVal,
    (v.toNat < 10 → (alpha v).toNat = 0x30 + v.toNat) ∧
    (10 ≤ v.toNat ∧ v.toNat < 18 → (alpha v).toNat = 0x41 + (v.toNat - 10)) ∧
    (18 ≤ v.toNat ∧ v.toNat < 20 → (alpha v).toNat = 0x4A + (v.toNat - 18)) ∧
    (20 ≤ v.toNat ∧ v.toNat < 22 → (alpha v).toNat = 0x4D + (v.toNat - 20)) ∧
    (22 ≤ v.toNat ∧ v.toNat < 27 → (alpha v).toNat = 0x50 + (v.toNat - 22)) ∧
    (27 ≤ v.toNat → (alpha v).toNat = 0x56 + (v.toNat - 27))

/-- R151 to R154: the four rules in priority order, over the octet's number. -/
def Obligations.ClassifierRules : Prop :=
  ∀ c : Octet,
    let u := if 0x61 ≤ c.toNat ∧ c.toNat ≤ 0x7A then c.toNat - 0x20 else c.toNat
    let letters := [0x41, 0x42, 0x43, 0x44, 0x45, 0x46, 0x47, 0x48, 0x4A, 0x4B, 0x4D,
                    0x4E, 0x50, 0x51, 0x52, 0x53, 0x54, 0x56, 0x57, 0x58, 0x59, 0x5A]
    if 0x30 ≤ c.toNat ∧ c.toNat ≤ 0x39 then (classify c).toNat = c.toNat - 0x30
    else if u = 0x49 ∨ u = 0x4C then (classify c).toNat = 1
    else if u = 0x4F then (classify c).toNat = 0
    else if u ∈ letters then ∃ p, p < 22 ∧ letters[p]? = some u ∧ (classify c).toNat = 10 + p
    else (classify c).toNat = 32

/-- R155: `Valid(c)` is `Classify(c) < 32`; 60 octets are valid: 10 digits, 25 upper-case letters (all but `U`) and 25
lower-case letters (all but `u`). -/
def Obligations.ValidIsBelowTheSentinel : Prop :=
  (∀ c : Octet, validChar c = true ↔ (classify c).toNat < 32) ∧
  (∀ c : Octet, validChar c = true ↔
    (0x30 ≤ c.toNat ∧ c.toNat ≤ 0x39) ∨ (0x41 ≤ c.toNat ∧ c.toNat ≤ 0x5A ∧ c.toNat ≠ 0x55) ∨
    (0x61 ≤ c.toNat ∧ c.toNat ≤ 0x7A ∧ c.toNat ≠ 0x75)) ∧
  ((List.range 256).filter fun c => validChar (BitVec.ofNat 8 c)).length = 60

/-- R158 (a), (b), (d): case does not matter; the aliases; the classifier inverts the alphabet. -/
def Obligations.ClassifierInvertsTheAlphabet : Prop :=
  (∀ c : Octet, 0x61 ≤ c.toNat ∧ c.toNat ≤ 0x7A → classify c = classify (c - 0x20#8)) ∧
  classify 0x49#8 = 1#6 ∧ classify 0x4C#8 = 1#6 ∧ classify 0x4F#8 = 0#6 ∧ validChar 0x55#8 = false ∧
  validChar 0x3D#8 = false ∧
  ∀ v : SymVal, validChar (alpha v) = true ∧ (classify (alpha v)).toNat = v.toNat

/-- R156: `CLS` answers the classification and changes no state element. -/
def Obligations.ClsAnswersAndChangesNothing : Prop :=
  ∀ (c : Octet) (s : State),
    (encode (.cls c)).toNat = 0x800 + c.toNat ∧
    exec (.cls c) s = .next { s with
      rsps := s.rsps ++
        [{ data := 0#64, n := 0#4, val := classify c, ok := decide ((classify c).toNat < 32), err := false,
           ill := false }] }

/-! ### The encoder -/

/-- R121: `ENC.PUSH` takes the byte in behind the held bits, emits the whole 5-bit fields from the top, 1 or 2 of them,
keeps the rest, and writes nothing else. -/
def Obligations.EncPushEmitsWholeSymbols : Prop :=
  ∀ (b : Octet) (s : State), s.EncInv →
    let acc := s.eacc.toNat * 256 + b.toNat
    let bits := s.ebits.toNat + 8
    let left := (s.ebits.toNat + 3) % 5
    (encode (.encPush b)).toNat = 0x100 + b.toNat ∧
    ∃ r, exec (.encPush b) s = .next { s with
        eacc := BitVec.ofNat 12 (acc % 2 ^ left)
        ebits := BitVec.ofNat 4 left
        esym := BitVec.ofNat 3 ((s.esym.toNat + bits / 5) % 8)
        rsps := s.rsps ++ [r] } ∧
      r.Carries ((List.range (bits / 5)).map fun j => alpha (BitVec.ofNat 5 (acc / 2 ^ (bits - 5 * (j + 1)) % 32))) false ∧
      r.n.toNat = if s.ebits.toNat ≤ 1 then 1 else 2

/-- R122: `ENC.FIN` emits the held bits as one final symbol, pads with `=` to a multiple of 8 symbols, clears the
encoder, and writes nothing else; in the states of a clean call (R31) its burst is 0, 2, 4, 5 or 7 octets. -/
def Obligations.EncFinFlushesAndPads : Prop :=
  ∀ (arg : Octet) (s : State), s.EncInv →
    let held := s.ebits.toNat
    let final := if held = 0 then [] else [alpha (BitVec.ofNat 5 (s.eacc.toNat * 2 ^ (5 - held) % 32))]
    let pads := (8 - (s.esym.toNat + final.length) % 8) % 8
    (encode (.encFin arg)).toNat = 0x200 + arg.toNat ∧
    ∃ r, exec (.encFin arg) s = .next { s with
        eacc := 0#12, ebits := 0#4, esym := 0#3, rsps := s.rsps ++ [r] } ∧
      r.Carries (final ++ List.replicate pads 0x3D#8) false ∧
      (s.EncPhase → r.n.toNat ∈ [0, 2, 4, 5, 7])

/-- R127: the burst of `ENC.FIN` after `k` bytes, by `k mod 5`: 0, 7, 5, 4 or 2 octets, of which 0, 6, 4, 3 or 1 are
`=`. -/
def Obligations.EncFinTailByByteCount : Prop :=
  ∀ (arg : Octet) (s : State) (k : Nat), s.EncInv →
    s.ebits.toNat = (8 * k) % 5 → s.esym.toNat = (8 * k / 5) % 8 →
    ∃ t r, exec (.encFin arg) s = .next t ∧ t.rsps = s.rsps ++ [r] ∧
      r.burst.length = [0, 7, 5, 4, 2].getD (k % 5) 0 ∧
      (r.burst.filter (· == 0x3D#8)).length = [0, 6, 4, 3, 1].getD (k % 5) 0

/-- R123: `ENC.CLR` clears the encoder and emits nothing. -/
def Obligations.EncClrClearsTheEncoder : Prop :=
  ∀ (arg : Octet) (s : State),
    (encode (.encClr arg)).toNat = 0x300 + arg.toNat ∧
    exec (.encClr arg) s = .next { s with
      eacc := 0#12, ebits := 0#4, esym := 0#3
      rsps := s.rsps ++ [{ data := 0#64, n := 0#4, val := 0#6, ok := false, err := false, ill := false }] }

/-- R131 and R129: whatever state it is in, the encoder emits only alphabet characters and `=`, all below 0x80, and never
reports an error. -/
def Obligations.EncoderEmitsOnlyItsAlphabet : Prop :=
  ∀ (i : Instr) (s : State), isEncoderCommand i = true →
    ∃ t r, exec i s = .next t ∧ t.rsps = s.rsps ++ [r] ∧ r.err = false ∧ r.ill = false ∧
      ∀ o ∈ r.burst, o.toNat < 0x80 ∧ (o = 0x3D#8 ∨ ∃ v : SymVal, o = alpha v)

/-- R82: operand bits a command ignores have no effect on the state or the response. -/
def Obligations.IgnoredOperandBitsHaveNoEffect : Prop :=
  ∀ (a b : Octet) (s : State),
    exec (.encFin a) s = exec (.encFin b) s ∧ exec (.encClr a) s = exec (.encClr b) s ∧
    exec (.decFin a) s = exec (.decFin b) s ∧ exec (.decClr a) s = exec (.decClr b) s ∧
    (a.toNat % 2 = b.toNat % 2 → exec (.decCfg a) s = exec (.decCfg b) s)

/-! ### The decoder -/

/-- R171 (a), R172, R174: below the 8th character, a valid symbol is accepted in either mode; it is shifted in, or only
counted where the group is poisoned; nothing is emitted and nothing else is written. -/
def Obligations.DecPushAcceptsAValidSymbol : Prop :=
  ∀ (c : Octet) (s : State), s.DecInv → (classify c).toNat < 32 → s.dcnt.toNat < 7 →
    exec (.decPush c) s = .next { s with
      dacc := if s.dpois then s.dacc else BitVec.ofNat 40 (s.dacc.toNat * 32 + (classify c).toNat)
      dbits := if s.dpois then s.dbits else BitVec.ofNat 6 (s.dbits.toNat + 5)
      dcnt := BitVec.ofNat 4 (s.dcnt.toNat + 1)
      rsps := s.rsps ++ [{ data := 0#64, n := 0#4, val := 0#6, ok := false, err := false, ill := false }] }

/-- R171 (b): in filter mode an invalid character is skipped: no state element changes, the response is all zero. -/
def Obligations.DecPushSkipsInFilterMode : Prop :=
  ∀ (c : Octet) (s : State), s.DecInv → classify c = 32#6 → s.strict = false →
    exec (.decPush c) s = .next { s with
      rsps := s.rsps ++ [{ data := 0#64, n := 0#4, val := 0#6, ok := false, err := false, ill := false }] }

/-- R171 (c), R172, R174: in strict mode, below the 8th character, an invalid character is accepted and poisons the
group: what the group held is thrown away, and nothing is reported yet. -/
def Obligations.DecPushPoisonsInStrictMode : Prop :=
  ∀ (c : Octet) (s : State), s.DecInv → classify c = 32#6 → s.strict = true → s.dcnt.toNat < 7 →
    exec (.decPush c) s = .next { s with
      dacc := 0#40, dbits := 0#6, dcnt := BitVec.ofNat 4 (s.dcnt.toNat + 1), dpois := true
      rsps := s.rsps ++ [{ data := 0#64, n := 0#4, val := 0#6, ok := false, err := false, ill := false }] }

/-- R173, R174: the 8th valid symbol of a group that is not poisoned closes it: 40 bits, exactly five bytes, the first
field first, and the decoder is cleared. -/
def Obligations.EighthSymbolEmitsFiveBytes : Prop :=
  ∀ (c : Octet) (s : State), s.DecInv → (classify c).toNat < 32 → s.dcnt.toNat = 7 → s.dpois = false →
    let acc := s.dacc.toNat * 32 + (classify c).toNat
    ∃ r, exec (.decPush c) s = .next { s with
        dacc := 0#40, dbits := 0#6, dcnt := 0#4, dpois := false, rsps := s.rsps ++ [r] } ∧
      r.Carries ((List.range Config.groupBytes).map fun j => BitVec.ofNat 8 (acc / 2 ^ (40 - 8 * (j + 1)) % 256)) false

/-- R174, R213, R218: the 8th character of a group that is poisoned, or that it poisons itself, closes the group with
`err = 1`, no byte, and the decoder cleared; `strict` keeps its value (R215). -/
def Obligations.EighthCharacterFailsAPoisonedGroup : Prop :=
  ∀ (c : Octet) (s : State), s.DecInv → s.dcnt.toNat = 7 → s.strict = true →
    (s.dpois = true ∨ classify c = 32#6) →
      exec (.decPush c) s = .next { s with
        dacc := 0#40, dbits := 0#6, dcnt := 0#4, dpois := false
        rsps := s.rsps ++ [{ data := 0#64, n := 0#4, val := 0#6, ok := false, err := true, ill := false }] }

/-- R175 with R173 and R178: `DEC.FIN` closes the open group and clears the decoder, and writes nothing else: a group of
`s` symbols that is not poisoned gives `floor(5s / 8)` bytes, the first field first, what is left discarded; a poisoned
group gives `err = 1` and no byte. -/
def Obligations.DecFinClosesTheGroup : Prop :=
  ∀ (arg : Octet) (s : State), s.DecInv →
    (encode (.decFin arg)).toNat = 0x600 + arg.toNat ∧
    ∃ r, exec (.decFin arg) s = .next { s with
        dacc := 0#40, dbits := 0#6, dcnt := 0#4, dpois := false, rsps := s.rsps ++ [r] } ∧
      (s.dpois = true → r.Carries [] true) ∧
      (s.dpois = false →
        r.Carries ((List.range (5 * s.dcnt.toNat / 8)).map fun j =>
          BitVec.ofNat 8 (s.dacc.toNat / 2 ^ (5 * s.dcnt.toNat - 8 * (j + 1)) % 256)) false)

/-- R176: `DEC.CLR` clears the decoder, keeps `strict`, emits nothing and reports no error even of a poisoned group. -/
def Obligations.DecClrAbandonsTheGroup : Prop :=
  ∀ (arg : Octet) (s : State),
    (encode (.decClr arg)).toNat = 0x700 + arg.toNat ∧
    exec (.decClr arg) s = .next { s with
      dacc := 0#40, dbits := 0#6, dcnt := 0#4, dpois := false
      rsps := s.rsps ++ [{ data := 0#64, n := 0#4, val := 0#6, ok := false, err := false, ill := false }] }

/-- R177: `DEC.CFG m` sets `strict` to `arg[0]` and abandons the open group. -/
def Obligations.DecCfgSetsTheMode : Prop :=
  ∀ (arg : Octet) (s : State),
    (encode (.decCfg arg)).toNat = 0x900 + arg.toNat ∧
    exec (.decCfg arg) s = .next { s with
      dacc := 0#40, dbits := 0#6, dcnt := 0#4, dpois := false, strict := decide (arg.toNat % 2 = 1)
      rsps := s.rsps ++ [{ data := 0#64, n := 0#4, val := 0#6, ok := false, err := false, ill := false }] }

/-- R179: the discarded bits of a group are not examined: groups of one length that differ only in the bits below the
last whole byte get one and the same response. -/
def Obligations.DiscardedBitsDoNotShow : Prop :=
  ∀ (arg : Octet) (s u : State), s.dpois = false → u.dpois = false → u.dbits = s.dbits →
    u.dacc.toNat / 2 ^ (s.dbits.toNat % 8) = s.dacc.toNat / 2 ^ (s.dbits.toNat % 8) →
    ∃ t v r, exec (.decFin arg) s = .next t ∧ exec (.decFin arg) u = .next v ∧
      t.rsps = s.rsps ++ [r] ∧ v.rsps = u.rsps ++ [r]

/-! ### Whole-machine rules -/

/-- R37, the encoder's rows: an encoder command writes the encoder registers only; decoder, control bit, the host's events and
the responses already produced stay. -/
def Obligations.EncoderCommandsFrame : Prop :=
  ∀ (i : Instr) (s t : State), isEncoderCommand i = true → exec i s = .next t →
    s.SameDecoder t ∧ t.strict = s.strict ∧ s.SameHost t ∧ ∃ r, t.rsps = s.rsps ++ [r]

/-- R37, the other rows: a decoder command or `CLS` never touches the encoder; only `DEC.CFG` writes `strict`; `CLS`
touches nothing; the host's events and the responses already produced stay. -/
def Obligations.DecoderCommandsFrame : Prop :=
  ∀ (i : Instr) (s t : State), isEncoderCommand i = false → exec i s = .next t →
    s.SameEncoder t ∧ s.SameHost t ∧ (∃ r, t.rsps = s.rsps ++ [r]) ∧
    ((∀ a, i ≠ .decCfg a) → t.strict = s.strict) ∧ ((∃ c, i = .cls c) → s.SameDecoder t)

/-- R36, R37: what a command answers and what it leaves in its unit depend on that unit alone: an encoder command on
the encoder registers, a decoder command on the decoder registers and `strict`, `CLS` on nothing. -/
def Obligations.ResponseDependsOnTheOwnUnitOnly : Prop :=
  ∀ (i : Instr) (s u : State),
    (isEncoderCommand i = true → s.SameEncoder u) →
    (isEncoderCommand i = false → (∀ c, i ≠ .cls c) → s.SameDecoder u ∧ u.strict = s.strict) →
    ∃ t v r, exec i s = .next t ∧ exec i u = .next v ∧ t.rsps = s.rsps ++ [r] ∧ v.rsps = u.rsps ++ [r] ∧
      (isEncoderCommand i = true → t.SameEncoder v) ∧
      (isEncoderCommand i = false → (∀ c, i ≠ .cls c) → t.SameDecoder v ∧ v.strict = t.strict)

/-- R68: an encoder command and a command of the decoder (or `CLS`) commute: in both orders the state elements end the
same and each command gets the same response. -/
def Obligations.UnitsCommute : Prop :=
  ∀ (a b : Instr) (s : State), isEncoderCommand a = true → isEncoderCommand b = false →
    ∃ t v ra rb, runCommands [a, b] s = .next t ∧ runCommands [b, a] s = .next v ∧
      t.rsps = s.rsps ++ [ra, rb] ∧ v.rsps = s.rsps ++ [rb, ra] ∧ v = { t with rsps := v.rsps }

/-- R212, R213, R215: `err = 1` is answered by `DEC.PUSH` and `DEC.FIN` only, in strict mode only, on a poisoned group;
that answer carries no byte, and the decoder is cleared, `strict` and the encoder untouched. -/
def Obligations.DecodeSymbolErrorOnlyInStrictMode : Prop :=
  ∀ (i : Instr) (s t : State) (r : Response), s.DecInv →
    exec i s = .next t → t.rsps = s.rsps ++ [r] → r.err = true →
      ((∃ c, i = .decPush c) ∨ ∃ a, i = .decFin a) ∧ s.strict = true ∧ r.n = 0#4 ∧ r.data = 0#64 ∧
      t.DecCleared ∧ t.strict = s.strict ∧ s.SameEncoder t

/-- R84: the sizes of the bursts, by command, from good states: 1 or 2 for `ENC.PUSH`; 0, 2, 4, 5 or 7 for `ENC.FIN`; 0
or 5 for `DEC.PUSH`; 0 to 4 for `DEC.FIN`; 0 for all others. -/
def Obligations.BurstSizesByCommand : Prop :=
  ∀ (i : Instr) (s : State), s.EncInv → s.EncPhase → s.DecInv →
    ∃ t r, exec i s = .next t ∧ t.rsps = s.rsps ++ [r] ∧
      match i with
      | .encPush _ => r.n.toNat = 1 ∨ r.n.toNat = 2
      | .encFin _ => r.n.toNat ∈ [0, 2, 4, 5, 7]
      | .decPush _ => r.n.toNat = 0 ∨ r.n.toNat = 5
      | .decFin _ => r.n.toNat ≤ 4
      | .encClr _ => r.n.toNat = 0
      | .decClr _ => r.n.toNat = 0
      | .cls _ => r.n.toNat = 0
      | .decCfg _ => r.n.toNat = 0

/-- R33: from good states no register write of the two `PUSH` commands truncates a value. -/
def Obligations.NoRegisterWriteTruncates : Prop :=
  (∀ (b : Octet) (s : State), s.EncInv →
    s.eacc.toNat * 256 + b.toNat < 2 ^ 12 ∧ s.ebits.toNat + 8 ≤ 12) ∧
  (∀ (c : Octet) (s : State), s.DecInv → (classify c).toNat < 32 → s.dpois = false →
    (acceptChar c s).dacc.toNat = s.dacc.toNat * 32 + (classify c).toNat ∧
    (acceptChar c s).dbits.toNat = s.dbits.toNat + 5 ∧ s.dbits.toNat + 5 ≤ 40) ∧
  (∀ (c : Octet) (s : State), s.DecInv →
    (acceptChar c s).dcnt.toNat ≤ 8 ∧
    ((classify c).toNat < 32 ∨ s.strict = true → (acceptChar c s).dcnt.toNat = s.dcnt.toNat + 1))

/-! ### Whole calls -/

/-- R128, R173, D24: an encode call of no bytes emits nothing, and a `FIN` with nothing pending emits nothing, reports
nothing and changes nothing. -/
def Obligations.FinWithNothingPendingDoesNothing : Prop :=
  encText [] = [] ∧
  ∀ (arg : Octet) (s : State),
    (s.EncCleared → exec (.encFin arg) s = .next { s with
      rsps := s.rsps ++ [{ data := 0#64, n := 0#4, val := 0#6, ok := false, err := false, ill := false }] }) ∧
    (s.DecCleared → exec (.decFin arg) s = .next { s with
      rsps := s.rsps ++ [{ data := 0#64, n := 0#4, val := 0#6, ok := false, err := false, ill := false }] })

/-- R31: in an encode call in which `k` bytes have been pushed, `ebits = (8 × k) mod 5` and
`esym = floor(8 × k / 5) mod 8`. -/
def Obligations.EncoderCountersFollowTheBytes : Prop :=
  ∀ (bytes : List Octet) (s : State), s.EncCleared →
    ∃ t, runCommands (bytes.map .encPush) s = .next t ∧
      t.ebits.toNat = (8 * bytes.length) % 5 ∧ t.esym.toNat = (8 * bytes.length / 5) % 8 ∧
      t.eacc.toNat < 2 ^ t.ebits.toNat

/-- R125: from the cleared encoder, the bursts of a whole call spell `Enc(B)`, and the encoder is cleared again. Each symbol
comes as early as it can: symbol `j` is in the burst of the push of byte `floor((5j + 4) / 8)`, so the first `k` pushes
have emitted the first `floor(8k / 5)` symbols. -/
def Obligations.EncodeCallComputesEnc : Prop :=
  ∀ (bytes : List Octet) (arg : Octet) (s : State), s.EncCleared →
    ∃ t rs, runCommands (bytes.map .encPush ++ [.encFin arg]) s = .next t ∧ t.rsps = s.rsps ++ rs ∧
      rs.length = bytes.length + 1 ∧ rs.flatMap Response.burst = encText bytes ∧ t.EncCleared ∧
      ∀ k, k ≤ bytes.length → (rs.take k).flatMap Response.burst = (encText bytes).take (8 * k / 5)

/-- R126: the length law, of the function and of the sum of `n` over the responses of the call. -/
def Obligations.EncodedLength : Prop :=
  ∀ bytes : List Octet,
    let total := 8 * ((bytes.length + 4) / 5)
    (encText bytes).length = total ∧ total = ((8 * bytes.length + 4) / 5 + 7) / 8 * 8 ∧
    ∀ (arg : Octet) (s : State), s.EncCleared →
      ∃ t rs, runCommands (bytes.map .encPush ++ [.encFin arg]) s = .next t ∧ t.rsps = s.rsps ++ rs ∧
        (rs.map fun r => r.n.toNat).sum = total

/-- R132: cutting the input at a multiple of 5 bytes does not change the text; cutting it elsewhere in general does. -/
def Obligations.EncodingInChunksOfFive : Prop :=
  (∀ b₁ b₂ : List Octet, b₁.length % 5 = 0 → encText (b₁ ++ b₂) = encText b₁ ++ encText b₂) ∧
  ∀ b₁ b₂ : List Octet, b₁.length % 5 ≠ 0 → b₂ ≠ [] →
    0x3D#8 ∈ encText b₁ ∧ encText (b₁ ++ b₂) ≠ encText b₁ ++ encText b₂

/-- R133: an encoder whose accumulator has any width of at least 12 bits, or none, and is never cleared above the bit
count, gives the same outputs, command by command. -/
def Obligations.AccumulatorWidthDoesNotShow : Prop :=
  ∀ (width : Option Nat) (bytes : List Octet) (arg : Octet) (s : State), (∀ w, width = some w → 12 ≤ w) →
    s.EncCleared →
    ∃ t rs, runCommands (bytes.map .encPush ++ [.encFin arg]) s = .next t ∧ t.rsps = s.rsps ++ rs ∧
      rs.map Response.burst = wideCall width bytes ⟨0, 0, 0⟩

/-- R182: in filter mode, from the cleared decoder, the bursts of a whole text spell `Bytes` of its valid characters; no
response has `err = 1`; the decoder is cleared afterwards. -/
def Obligations.FilterModeComputesBytes : Prop :=
  ∀ (text : List Octet) (arg : Octet) (s : State), s.DecCleared → s.strict = false →
    ∃ t rs, runCommands (text.map .decPush ++ [.decFin arg]) s = .next t ∧ t.rsps = s.rsps ++ rs ∧
      rs.length = text.length + 1 ∧ rs.flatMap Response.burst = bytesOf (symbolValues text) ∧
      (∀ r ∈ rs, r.err = false) ∧ t.DecCleared

/-- R183: in strict mode, from the cleared decoder, each window of 8 characters is answered as `DecCall` of it: its
bytes, or `err = 1`, on the command of its 8th character, and those of the last, shorter window on `DEC.FIN`; the
other commands answer nothing. -/
def Obligations.StrictModeDecodesByWindows : Prop :=
  ∀ (text : List Octet) (arg : Octet) (s : State), s.DecCleared → s.strict = true →
    ∃ t rs, runCommands (text.map .decPush ++ [.decFin arg]) s = .next t ∧ t.rsps = s.rsps ++ rs ∧
      rs.length = text.length + 1 ∧ t.DecCleared ∧
      ∀ k r, rs[k]? = some r →
        if k % 8 = 7 ∨ k = text.length then
          r.burst = (decCall (window text (k / 8))).1 ∧ r.err = !(decCall (window text (k / 8))).2
        else r.burst = [] ∧ r.err = false

/-- R184: the round trip: what the encoder makes of any bytes, fed to the decoder in filter mode, comes back as those
bytes, with no `err`. The text is the one the core's own encode call returns. -/
def Obligations.FilterModeRoundTrip : Prop :=
  ∀ (bytes : List Octet) (a b : Octet) (s u : State), s.EncCleared → u.DecCleared → u.strict = false →
    ∃ t rs v qs, runCommands (bytes.map .encPush ++ [.encFin a]) s = .next t ∧ t.rsps = s.rsps ++ rs ∧
      runCommands ((rs.flatMap Response.burst).map .decPush ++ [.decFin b]) u = .next v ∧
      v.rsps = u.rsps ++ qs ∧ qs.flatMap Response.burst = bytes ∧ ∀ r ∈ qs, r.err = false

/-- R184, R186: in strict mode the round trip returns only the whole blocks of 5 bytes: when the byte count is no multiple
of 5 the window that holds the `=` fails, with one `err`, and the last `L mod 5` bytes are lost. -/
def Obligations.StrictModeLosesThePaddedTail : Prop :=
  ∀ (bytes : List Octet) (arg : Octet) (u : State), u.DecCleared → u.strict = true →
    ∃ v qs, runCommands ((encText bytes).map .decPush ++ [.decFin arg]) u = .next v ∧ v.rsps = u.rsps ++ qs ∧
      qs.flatMap Response.burst = bytes.take (5 * (bytes.length / 5)) ∧
      (qs.filter fun r => r.err).length = if bytes.length % 5 = 0 then 0 else 1
end

