-- ==== Sys2Proof/Laws/Bits.lean ====
section
/-! SUPPORT. Strings of bits and the numbers they spell (spec/20_memory.md R55, R56): what the whole-call functions rest
on. -/

namespace Sys2Proof.Machine

theorem bitString_length (w v : Nat) : (bitString w v).length = w := by
  induction w with
  | zero => rfl
  | succ w ih => simp [bitString, ih]

theorem bitsValue_foldl (bits : List Bool) (a : Nat) :
    bits.foldl (fun acc b => 2 * acc + b.toNat) a = a * 2 ^ bits.length + bitsValue bits := by
  induction bits generalizing a with
  | nil => simp [bitsValue]
  | cons b rest ih =>
    simp only [List.foldl_cons, bitsValue, List.length_cons]
    rw [ih, ih (2 * 0 + b.toNat), Nat.pow_succ]; ring

theorem bitsValue_cons (b : Bool) (rest : List Bool) :
    bitsValue (b :: rest) = b.toNat * 2 ^ rest.length + bitsValue rest := by
  simp only [bitsValue, List.foldl_cons]
  rw [bitsValue_foldl]; simp [bitsValue]

theorem bitsValue_append (x y : List Bool) :
    bitsValue (x ++ y) = bitsValue x * 2 ^ y.length + bitsValue y := by
  simp only [bitsValue, List.foldl_append]
  rw [bitsValue_foldl]; rfl

theorem bitsValue_lt (bits : List Bool) : bitsValue bits < 2 ^ bits.length := by
  induction bits with
  | nil => simp [bitsValue]
  | cons b rest ih =>
    rw [bitsValue_cons, List.length_cons, Nat.pow_succ]
    cases b <;> simp <;> omega

/-- The string of `w` bits of a number spells its low `w` bits. -/
theorem bitsValue_bitString (w v : Nat) : bitsValue (bitString w v) = v % 2 ^ w := by
  induction w with
  | zero => simp [bitString, bitsValue, Nat.mod_one]
  | succ w ih =>
    have hb : (v.testBit w).toNat = v / 2 ^ w % 2 := by
      rw [Nat.testBit_eq_decide_div_mod_eq]
      rcases Nat.mod_two_eq_zero_or_one (v / 2 ^ w) with h | h <;> simp [h]
    rw [bitString, bitsValue_cons, bitString_length, ih, hb, Nat.pow_succ, Nat.mod_mul]; ring

/-- The first `w` bits of a string, as a number, are its number without the bits after them. -/
theorem bitsValue_take (bits : List Bool) (w : Nat) :
    bitsValue (bits.take w) = bitsValue bits / 2 ^ (bits.length - w) := by
  have e := bitsValue_append (bits.take w) (bits.drop w)
  have hlt := bitsValue_lt (bits.drop w)
  rw [List.take_append_drop, List.length_drop] at e
  rw [List.length_drop] at hlt
  rw [e, Nat.mul_comm, Nat.mul_add_div (by positivity), Nat.div_eq_of_lt hlt, Nat.add_zero]

/-- The bits of a string after the first `w`, as a number. -/
theorem bitsValue_drop (bits : List Bool) (w : Nat) :
    bitsValue (bits.drop w) = bitsValue bits % 2 ^ (bits.length - w) := by
  have e := bitsValue_append (bits.take w) (bits.drop w)
  have hlt := bitsValue_lt (bits.drop w)
  rw [List.take_append_drop, List.length_drop] at e
  rw [List.length_drop] at hlt
  rw [e, Nat.mul_add_mod_self_right, Nat.mod_eq_of_lt hlt]

/-- Field `j` of a string is what the units' loop takes from the string's number (R121, R173). -/
theorem bitField_eq (k : Nat) (bits : List Bool) (j : Nat) (h : k * (j + 1) ≤ bits.length) :
    bitField k bits j = bitsValue bits / 2 ^ (bits.length - k * (j + 1)) % 2 ^ k := by
  have hj : k * (j + 1) = k * j + k := by ring
  have hk : k ≤ (bits.drop (k * j)).length := by rw [List.length_drop]; omega
  rw [bitField, bitsValue_take, bitsValue_drop, List.length_drop]
  rw [show bits.length - k * (j + 1) = bits.length - k * j - k by omega]
  have hs : bits.length - k * j = (bits.length - k * j - k) + k := by
    rw [List.length_drop] at hk; omega
  conv_lhs => rw [hs, Nat.add_sub_cancel]
  rw [Nat.pow_add, Nat.mod_mul_right_div_self]

end Sys2Proof.Machine
end

