-- ==== Sys2Proof/Laws/Operands.lean ====
section
/-! SUPPORT. What the two tables hold, said once (spec/30_encoding.md R96, spec/41_classifier.md R150 to R158). -/

namespace Sys2Proof.Machine

theorem alphaTable_length : alphaTable.length = 32 := by decide

theorem letters22_length : letters22.length = 22 := by decide

/-- The validity predicate as a bound on the classification (R155). -/
theorem validChar_iff (c : Octet) : validChar c = true ↔ (classify c).toNat < 32 := by
  simp [validChar, BitVec.lt_def]

/-- An invalid character is classified as the sentinel: 6 bits hold no value above 32 that the rules give (R150). -/
theorem classify_of_not_valid (c : Octet) : validChar c = false → classify c = 32#6 := by
  revert c; decide

/-- A valid character keeps its value when the classification is cut to 5 bits. -/
theorem classify_setWidth_toNat (c : Octet) (h : validChar c = true) :
    ((classify c).setWidth 5).toNat = (classify c).toNat := by
  have := (validChar_iff c).1 h
  simp [BitVec.toNat_setWidth, Nat.mod_eq_of_lt this]

end Sys2Proof.Machine
end

