-- ==== Sys2Proof/Laws/Response.lean ====
section
/-! SUPPORT. What a response holds, said once: the burst read back is the burst emitted (spec/30_encoding.md R84). -/

namespace Sys2Proof.Machine

theorem lanesNat_lt (out : List Octet) : lanesNat out < 2 ^ (8 * out.length) := by
  induction out with
  | nil => simp [lanesNat]
  | cons o rest ih =>
    have ho := o.isLt
    have : 2 ^ (8 * (o :: rest).length) = 256 * 2 ^ (8 * rest.length) := by
      rw [List.length_cons, Nat.mul_add, Nat.pow_add]; omega
    simp only [lanesNat]; omega

/-- Lane `i` of a burst as a digit in base 256. -/
theorem lanesNat_digit (out : List Octet) (i : Nat) :
    lanesNat out / 256 ^ i % 256 = if h : i < out.length then out[i].toNat else 0 := by
  induction out generalizing i with
  | nil => simp [lanesNat]
  | cons o rest ih =>
    have ho := o.isLt
    cases i with
    | zero => simp [lanesNat]; omega
    | succ i =>
      have : (o.toNat + 256 * lanesNat rest) / 256 ^ (i + 1) = lanesNat rest / 256 ^ i := by
        rw [Nat.pow_succ', ← Nat.div_div_eq_div_mul, Nat.add_mul_div_left _ _ (by decide),
          Nat.div_eq_of_lt ho, Nat.zero_add]
      simp only [lanesNat, this, ih i]
      simp

/-- A lane below the burst's end holds its octet, one at or above it holds 0 (R84). -/
theorem lane_ofBurst (out : List Octet) (i : Nat) (hi : i < 8) :
    (Response.ofBurst out).lane i = if h : i < out.length then out[i] else 0#8 := by
  have hd := lanesNat_digit out i
  have hpow : (2 : Nat) ^ 64 = 2 ^ (8 * i) * (256 * 2 ^ (64 - 8 * i - 8)) := by
    rw [show (256 : Nat) = 2 ^ 8 by rfl, ← Nat.pow_add, ← Nat.pow_add]; congr 1; omega
  have h256 : (256 : Nat) ^ i = 2 ^ (8 * i) := by rw [show (256 : Nat) = 2 ^ 8 by rfl, ← Nat.pow_mul]
  apply BitVec.eq_of_toNat_eq
  simp only [Response.lane, Response.ofBurst, BitVec.extractLsb'_toNat, BitVec.toNat_ofNat,
    Nat.shiftRight_eq_div_pow]
  rw [hpow, Nat.mod_mul_right_div_self, Nat.mod_mul_right_mod, ← h256]
  rw [hd]
  split <;> rfl

@[simp] theorem ofBurst_n (out : List Octet) : (Response.ofBurst out).n = BitVec.ofNat 4 out.length := rfl
@[simp] theorem ofBurst_val (out : List Octet) : (Response.ofBurst out).val = 0#6 := rfl
@[simp] theorem ofBurst_ok (out : List Octet) : (Response.ofBurst out).ok = false := rfl
@[simp] theorem ofBurst_err (out : List Octet) : (Response.ofBurst out).err = false := rfl
@[simp] theorem ofBurst_ill (out : List Octet) : (Response.ofBurst out).ill = false := rfl

theorem ofBurst_n_toNat (out : List Octet) (h : out.length ≤ 8) :
    (Response.ofBurst out).n.toNat = out.length := by
  simp only [ofBurst_n, BitVec.toNat_ofNat]; omega

/-- The host reads back what the command emitted (R58, R84). -/
theorem burst_ofBurst (out : List Octet) (h : out.length ≤ 8) : (Response.ofBurst out).burst = out := by
  apply List.ext_getElem
  · simp only [Response.burst, List.length_map, List.length_range, ofBurst_n_toNat out h]
  · intro i h1 h2
    have hi : i < 8 := Nat.lt_of_lt_of_le h2 h
    simp [Response.burst, lane_ofBurst out i hi, h2]

/-- Every lane of a burst at once, as the octet of the list or 0 (R84). -/
theorem lane_ofBurst_getD (out : List Octet) (i : Nat) (hi : i < 8) :
    (Response.ofBurst out).lane i = out.getD i 0x00#8 := by
  rw [lane_ofBurst out i hi]
  split
  · next h => simp [List.getD_eq_getElem?_getD, h]
  · next h => simp [List.getD_eq_getElem?_getD, Nat.le_of_not_lt h]

theorem burst_zero : Response.zero.burst = [] := burst_ofBurst [] (by simp)

theorem burst_raiseError (e : CoreError) (r : Response) : (raiseError e r).burst = r.burst := by
  cases e <;> rfl

/-- Raising an error sets its own flag and changes no other field (R12, R213, R216). -/
theorem raiseError_eq (e : CoreError) (r : Response) :
    raiseError e r =
      { r with err := r.err || (e == .decodeSymbolError), ill := r.ill || (e == .illegalCommand) } := by
  cases e <;> cases r <;> simp [raiseError]

end Sys2Proof.Machine
end

