-- ==== Sys2Proof/Laws/State.lean ====
section
/-! SUPPORT. One lemma per field per update of the state, each true by rfl, so that no proof unfolds a record update. -/

namespace Sys2Proof.Machine

@[simp] theorem State.setEncoder_eacc (s : State) (a : BitVec 12) (b : BitVec 4) (e : BitVec 3) : (s.setEncoder a b e).eacc = a := rfl
@[simp] theorem State.setEncoder_ebits (s : State) (a : BitVec 12) (b : BitVec 4) (e : BitVec 3) : (s.setEncoder a b e).ebits = b := rfl
@[simp] theorem State.setEncoder_esym (s : State) (a : BitVec 12) (b : BitVec 4) (e : BitVec 3) : (s.setEncoder a b e).esym = e := rfl
@[simp] theorem State.setEncoder_dacc (s : State) (a : BitVec 12) (b : BitVec 4) (e : BitVec 3) : (s.setEncoder a b e).dacc = s.dacc := rfl
@[simp] theorem State.setEncoder_dbits (s : State) (a : BitVec 12) (b : BitVec 4) (e : BitVec 3) : (s.setEncoder a b e).dbits = s.dbits := rfl
@[simp] theorem State.setEncoder_dcnt (s : State) (a : BitVec 12) (b : BitVec 4) (e : BitVec 3) : (s.setEncoder a b e).dcnt = s.dcnt := rfl
@[simp] theorem State.setEncoder_dpois (s : State) (a : BitVec 12) (b : BitVec 4) (e : BitVec 3) : (s.setEncoder a b e).dpois = s.dpois := rfl
@[simp] theorem State.setEncoder_strict (s : State) (a : BitVec 12) (b : BitVec 4) (e : BitVec 3) : (s.setEncoder a b e).strict = s.strict := rfl
@[simp] theorem State.setEncoder_resetSeen (s : State) (a : BitVec 12) (b : BitVec 4) (e : BitVec 3) : (s.setEncoder a b e).resetSeen = s.resetSeen := rfl
@[simp] theorem State.setEncoder_inputs (s : State) (a : BitVec 12) (b : BitVec 4) (e : BitVec 3) : (s.setEncoder a b e).inputs = s.inputs := rfl
@[simp] theorem State.setEncoder_rsps (s : State) (a : BitVec 12) (b : BitVec 4) (e : BitVec 3) : (s.setEncoder a b e).rsps = s.rsps := rfl

@[simp] theorem State.setDecoder_eacc (s : State) (a : BitVec 40) (b : BitVec 6) (n : BitVec 4) (p : Bool) : (s.setDecoder a b n p).eacc = s.eacc := rfl
@[simp] theorem State.setDecoder_ebits (s : State) (a : BitVec 40) (b : BitVec 6) (n : BitVec 4) (p : Bool) : (s.setDecoder a b n p).ebits = s.ebits := rfl
@[simp] theorem State.setDecoder_esym (s : State) (a : BitVec 40) (b : BitVec 6) (n : BitVec 4) (p : Bool) : (s.setDecoder a b n p).esym = s.esym := rfl
@[simp] theorem State.setDecoder_dacc (s : State) (a : BitVec 40) (b : BitVec 6) (n : BitVec 4) (p : Bool) : (s.setDecoder a b n p).dacc = a := rfl
@[simp] theorem State.setDecoder_dbits (s : State) (a : BitVec 40) (b : BitVec 6) (n : BitVec 4) (p : Bool) : (s.setDecoder a b n p).dbits = b := rfl
@[simp] theorem State.setDecoder_dcnt (s : State) (a : BitVec 40) (b : BitVec 6) (n : BitVec 4) (p : Bool) : (s.setDecoder a b n p).dcnt = n := rfl
@[simp] theorem State.setDecoder_dpois (s : State) (a : BitVec 40) (b : BitVec 6) (n : BitVec 4) (p : Bool) : (s.setDecoder a b n p).dpois = p := rfl
@[simp] theorem State.setDecoder_strict (s : State) (a : BitVec 40) (b : BitVec 6) (n : BitVec 4) (p : Bool) : (s.setDecoder a b n p).strict = s.strict := rfl
@[simp] theorem State.setDecoder_resetSeen (s : State) (a : BitVec 40) (b : BitVec 6) (n : BitVec 4) (p : Bool) : (s.setDecoder a b n p).resetSeen = s.resetSeen := rfl
@[simp] theorem State.setDecoder_inputs (s : State) (a : BitVec 40) (b : BitVec 6) (n : BitVec 4) (p : Bool) : (s.setDecoder a b n p).inputs = s.inputs := rfl
@[simp] theorem State.setDecoder_rsps (s : State) (a : BitVec 40) (b : BitVec 6) (n : BitVec 4) (p : Bool) : (s.setDecoder a b n p).rsps = s.rsps := rfl

@[simp] theorem State.setStrict_eacc (s : State) (m : Bool) : (s.setStrict m).eacc = s.eacc := rfl
@[simp] theorem State.setStrict_ebits (s : State) (m : Bool) : (s.setStrict m).ebits = s.ebits := rfl
@[simp] theorem State.setStrict_esym (s : State) (m : Bool) : (s.setStrict m).esym = s.esym := rfl
@[simp] theorem State.setStrict_dacc (s : State) (m : Bool) : (s.setStrict m).dacc = s.dacc := rfl
@[simp] theorem State.setStrict_dbits (s : State) (m : Bool) : (s.setStrict m).dbits = s.dbits := rfl
@[simp] theorem State.setStrict_dcnt (s : State) (m : Bool) : (s.setStrict m).dcnt = s.dcnt := rfl
@[simp] theorem State.setStrict_dpois (s : State) (m : Bool) : (s.setStrict m).dpois = s.dpois := rfl
@[simp] theorem State.setStrict_strict (s : State) (m : Bool) : (s.setStrict m).strict = m := rfl
@[simp] theorem State.setStrict_resetSeen (s : State) (m : Bool) : (s.setStrict m).resetSeen = s.resetSeen := rfl
@[simp] theorem State.setStrict_inputs (s : State) (m : Bool) : (s.setStrict m).inputs = s.inputs := rfl
@[simp] theorem State.setStrict_rsps (s : State) (m : Bool) : (s.setStrict m).rsps = s.rsps := rfl

@[simp] theorem State.respond_eacc (s : State) (r : Response) : (s.respond r).eacc = s.eacc := rfl
@[simp] theorem State.respond_ebits (s : State) (r : Response) : (s.respond r).ebits = s.ebits := rfl
@[simp] theorem State.respond_esym (s : State) (r : Response) : (s.respond r).esym = s.esym := rfl
@[simp] theorem State.respond_dacc (s : State) (r : Response) : (s.respond r).dacc = s.dacc := rfl
@[simp] theorem State.respond_dbits (s : State) (r : Response) : (s.respond r).dbits = s.dbits := rfl
@[simp] theorem State.respond_dcnt (s : State) (r : Response) : (s.respond r).dcnt = s.dcnt := rfl
@[simp] theorem State.respond_dpois (s : State) (r : Response) : (s.respond r).dpois = s.dpois := rfl
@[simp] theorem State.respond_strict (s : State) (r : Response) : (s.respond r).strict = s.strict := rfl
@[simp] theorem State.respond_resetSeen (s : State) (r : Response) : (s.respond r).resetSeen = s.resetSeen := rfl
@[simp] theorem State.respond_inputs (s : State) (r : Response) : (s.respond r).inputs = s.inputs := rfl
@[simp] theorem State.respond_rsps (s : State) (r : Response) : (s.respond r).rsps = s.rsps ++ [r] := rfl

@[simp] theorem State.advance_eacc (s : State) (l : List HostEvent) : (s.advance l).eacc = s.eacc := rfl
@[simp] theorem State.advance_ebits (s : State) (l : List HostEvent) : (s.advance l).ebits = s.ebits := rfl
@[simp] theorem State.advance_esym (s : State) (l : List HostEvent) : (s.advance l).esym = s.esym := rfl
@[simp] theorem State.advance_dacc (s : State) (l : List HostEvent) : (s.advance l).dacc = s.dacc := rfl
@[simp] theorem State.advance_dbits (s : State) (l : List HostEvent) : (s.advance l).dbits = s.dbits := rfl
@[simp] theorem State.advance_dcnt (s : State) (l : List HostEvent) : (s.advance l).dcnt = s.dcnt := rfl
@[simp] theorem State.advance_dpois (s : State) (l : List HostEvent) : (s.advance l).dpois = s.dpois := rfl
@[simp] theorem State.advance_strict (s : State) (l : List HostEvent) : (s.advance l).strict = s.strict := rfl
@[simp] theorem State.advance_resetSeen (s : State) (l : List HostEvent) : (s.advance l).resetSeen = s.resetSeen := rfl
@[simp] theorem State.advance_inputs (s : State) (l : List HostEvent) : (s.advance l).inputs = l := rfl
@[simp] theorem State.advance_rsps (s : State) (l : List HostEvent) : (s.advance l).rsps = s.rsps := rfl

@[simp] theorem State.clearEncoder_eacc (s : State) : (s.clearEncoder).eacc = 0#12 := rfl
@[simp] theorem State.clearEncoder_ebits (s : State) : (s.clearEncoder).ebits = 0#4 := rfl
@[simp] theorem State.clearEncoder_esym (s : State) : (s.clearEncoder).esym = 0#3 := rfl
@[simp] theorem State.clearEncoder_dacc (s : State) : (s.clearEncoder).dacc = s.dacc := rfl
@[simp] theorem State.clearEncoder_dbits (s : State) : (s.clearEncoder).dbits = s.dbits := rfl
@[simp] theorem State.clearEncoder_dcnt (s : State) : (s.clearEncoder).dcnt = s.dcnt := rfl
@[simp] theorem State.clearEncoder_dpois (s : State) : (s.clearEncoder).dpois = s.dpois := rfl
@[simp] theorem State.clearEncoder_strict (s : State) : (s.clearEncoder).strict = s.strict := rfl
@[simp] theorem State.clearEncoder_resetSeen (s : State) : (s.clearEncoder).resetSeen = s.resetSeen := rfl
@[simp] theorem State.clearEncoder_inputs (s : State) : (s.clearEncoder).inputs = s.inputs := rfl
@[simp] theorem State.clearEncoder_rsps (s : State) : (s.clearEncoder).rsps = s.rsps := rfl

@[simp] theorem State.clearDecoder_eacc (s : State) : (s.clearDecoder).eacc = s.eacc := rfl
@[simp] theorem State.clearDecoder_ebits (s : State) : (s.clearDecoder).ebits = s.ebits := rfl
@[simp] theorem State.clearDecoder_esym (s : State) : (s.clearDecoder).esym = s.esym := rfl
@[simp] theorem State.clearDecoder_dacc (s : State) : (s.clearDecoder).dacc = 0#40 := rfl
@[simp] theorem State.clearDecoder_dbits (s : State) : (s.clearDecoder).dbits = 0#6 := rfl
@[simp] theorem State.clearDecoder_dcnt (s : State) : (s.clearDecoder).dcnt = 0#4 := rfl
@[simp] theorem State.clearDecoder_dpois (s : State) : (s.clearDecoder).dpois = false := rfl
@[simp] theorem State.clearDecoder_strict (s : State) : (s.clearDecoder).strict = s.strict := rfl
@[simp] theorem State.clearDecoder_resetSeen (s : State) : (s.clearDecoder).resetSeen = s.resetSeen := rfl
@[simp] theorem State.clearDecoder_inputs (s : State) : (s.clearDecoder).inputs = s.inputs := rfl
@[simp] theorem State.clearDecoder_rsps (s : State) : (s.clearDecoder).rsps = s.rsps := rfl

@[simp] theorem State.shiftIn_eacc (s : State) (v : BitVec 6) : (s.shiftIn v).eacc = s.eacc := rfl
@[simp] theorem State.shiftIn_ebits (s : State) (v : BitVec 6) : (s.shiftIn v).ebits = s.ebits := rfl
@[simp] theorem State.shiftIn_esym (s : State) (v : BitVec 6) : (s.shiftIn v).esym = s.esym := rfl
@[simp] theorem State.shiftIn_dacc (s : State) (v : BitVec 6) : (s.shiftIn v).dacc = BitVec.ofNat 40 ((s.dacc.toNat <<< 5) ||| v.toNat) := rfl
@[simp] theorem State.shiftIn_dbits (s : State) (v : BitVec 6) : (s.shiftIn v).dbits = s.dbits + 5#6 := rfl
@[simp] theorem State.shiftIn_dcnt (s : State) (v : BitVec 6) : (s.shiftIn v).dcnt = s.dcnt := rfl
@[simp] theorem State.shiftIn_dpois (s : State) (v : BitVec 6) : (s.shiftIn v).dpois = s.dpois := rfl
@[simp] theorem State.shiftIn_strict (s : State) (v : BitVec 6) : (s.shiftIn v).strict = s.strict := rfl
@[simp] theorem State.shiftIn_resetSeen (s : State) (v : BitVec 6) : (s.shiftIn v).resetSeen = s.resetSeen := rfl
@[simp] theorem State.shiftIn_inputs (s : State) (v : BitVec 6) : (s.shiftIn v).inputs = s.inputs := rfl
@[simp] theorem State.shiftIn_rsps (s : State) (v : BitVec 6) : (s.shiftIn v).rsps = s.rsps := rfl

@[simp] theorem State.poison_eacc (s : State) : (s.poison).eacc = s.eacc := rfl
@[simp] theorem State.poison_ebits (s : State) : (s.poison).ebits = s.ebits := rfl
@[simp] theorem State.poison_esym (s : State) : (s.poison).esym = s.esym := rfl
@[simp] theorem State.poison_dacc (s : State) : (s.poison).dacc = 0#40 := rfl
@[simp] theorem State.poison_dbits (s : State) : (s.poison).dbits = 0#6 := rfl
@[simp] theorem State.poison_dcnt (s : State) : (s.poison).dcnt = s.dcnt := rfl
@[simp] theorem State.poison_dpois (s : State) : (s.poison).dpois = true := rfl
@[simp] theorem State.poison_strict (s : State) : (s.poison).strict = s.strict := rfl
@[simp] theorem State.poison_resetSeen (s : State) : (s.poison).resetSeen = s.resetSeen := rfl
@[simp] theorem State.poison_inputs (s : State) : (s.poison).inputs = s.inputs := rfl
@[simp] theorem State.poison_rsps (s : State) : (s.poison).rsps = s.rsps := rfl

@[simp] theorem State.countChar_eacc (s : State) : (s.countChar).eacc = s.eacc := rfl
@[simp] theorem State.countChar_ebits (s : State) : (s.countChar).ebits = s.ebits := rfl
@[simp] theorem State.countChar_esym (s : State) : (s.countChar).esym = s.esym := rfl
@[simp] theorem State.countChar_dacc (s : State) : (s.countChar).dacc = s.dacc := rfl
@[simp] theorem State.countChar_dbits (s : State) : (s.countChar).dbits = s.dbits := rfl
@[simp] theorem State.countChar_dcnt (s : State) : (s.countChar).dcnt = s.dcnt + 1#4 := rfl
@[simp] theorem State.countChar_dpois (s : State) : (s.countChar).dpois = s.dpois := rfl
@[simp] theorem State.countChar_strict (s : State) : (s.countChar).strict = s.strict := rfl
@[simp] theorem State.countChar_resetSeen (s : State) : (s.countChar).resetSeen = s.resetSeen := rfl
@[simp] theorem State.countChar_inputs (s : State) : (s.countChar).inputs = s.inputs := rfl
@[simp] theorem State.countChar_rsps (s : State) : (s.countChar).rsps = s.rsps := rfl

@[simp] theorem applyReset_eacc (s : State) : (applyReset s).eacc = State.reset.eacc := rfl
@[simp] theorem applyReset_ebits (s : State) : (applyReset s).ebits = State.reset.ebits := rfl
@[simp] theorem applyReset_esym (s : State) : (applyReset s).esym = State.reset.esym := rfl
@[simp] theorem applyReset_dacc (s : State) : (applyReset s).dacc = State.reset.dacc := rfl
@[simp] theorem applyReset_dbits (s : State) : (applyReset s).dbits = State.reset.dbits := rfl
@[simp] theorem applyReset_dcnt (s : State) : (applyReset s).dcnt = State.reset.dcnt := rfl
@[simp] theorem applyReset_dpois (s : State) : (applyReset s).dpois = State.reset.dpois := rfl
@[simp] theorem applyReset_strict (s : State) : (applyReset s).strict = State.reset.strict := rfl
@[simp] theorem applyReset_resetSeen (s : State) : (applyReset s).resetSeen = State.reset.resetSeen := rfl
@[simp] theorem applyReset_inputs (s : State) : (applyReset s).inputs = s.inputs := rfl
@[simp] theorem applyReset_rsps (s : State) : (applyReset s).rsps = State.reset.rsps := rfl

@[simp] theorem takeResponse_eacc (s : State) : (takeResponse s).eacc = s.eacc := rfl
@[simp] theorem takeResponse_ebits (s : State) : (takeResponse s).ebits = s.ebits := rfl
@[simp] theorem takeResponse_esym (s : State) : (takeResponse s).esym = s.esym := rfl
@[simp] theorem takeResponse_dacc (s : State) : (takeResponse s).dacc = s.dacc := rfl
@[simp] theorem takeResponse_dbits (s : State) : (takeResponse s).dbits = s.dbits := rfl
@[simp] theorem takeResponse_dcnt (s : State) : (takeResponse s).dcnt = s.dcnt := rfl
@[simp] theorem takeResponse_dpois (s : State) : (takeResponse s).dpois = s.dpois := rfl
@[simp] theorem takeResponse_strict (s : State) : (takeResponse s).strict = s.strict := rfl
@[simp] theorem takeResponse_resetSeen (s : State) : (takeResponse s).resetSeen = s.resetSeen := rfl
@[simp] theorem takeResponse_inputs (s : State) : (takeResponse s).inputs = s.inputs := rfl
@[simp] theorem takeResponse_rsps (s : State) : (takeResponse s).rsps = s.rsps.tail := rfl

@[simp] theorem presentCommand_eacc (s : State) (w : Command) : (presentCommand s w).eacc = s.eacc := rfl
@[simp] theorem presentCommand_ebits (s : State) (w : Command) : (presentCommand s w).ebits = s.ebits := rfl
@[simp] theorem presentCommand_esym (s : State) (w : Command) : (presentCommand s w).esym = s.esym := rfl
@[simp] theorem presentCommand_dacc (s : State) (w : Command) : (presentCommand s w).dacc = s.dacc := rfl
@[simp] theorem presentCommand_dbits (s : State) (w : Command) : (presentCommand s w).dbits = s.dbits := rfl
@[simp] theorem presentCommand_dcnt (s : State) (w : Command) : (presentCommand s w).dcnt = s.dcnt := rfl
@[simp] theorem presentCommand_dpois (s : State) (w : Command) : (presentCommand s w).dpois = s.dpois := rfl
@[simp] theorem presentCommand_strict (s : State) (w : Command) : (presentCommand s w).strict = s.strict := rfl
@[simp] theorem presentCommand_resetSeen (s : State) (w : Command) : (presentCommand s w).resetSeen = s.resetSeen := rfl
@[simp] theorem presentCommand_inputs (s : State) (w : Command) : (presentCommand s w).inputs = .issue w :: s.inputs := rfl
@[simp] theorem presentCommand_rsps (s : State) (w : Command) : (presentCommand s w).rsps = s.rsps := rfl

/-- Producing responses does not disturb writing the encoder, and so on: the updates of different parts of the state can
be moved past each other. -/
theorem State.respond_setEncoder (s : State) (r : Response) (a : BitVec 12) (b : BitVec 4) (e : BitVec 3) :
    (s.respond r).setEncoder a b e = (s.setEncoder a b e).respond r := rfl

theorem State.respond_setDecoder (s : State) (r : Response) (a : BitVec 40) (b : BitVec 6) (n : BitVec 4) (p : Bool) :
    (s.respond r).setDecoder a b n p = (s.setDecoder a b n p).respond r := rfl

theorem State.setDecoder_setEncoder (s : State) (a : BitVec 12) (b : BitVec 4) (e : BitVec 3)
    (a' : BitVec 40) (b' : BitVec 6) (n : BitVec 4) (p : Bool) :
    (s.setEncoder a b e).setDecoder a' b' n p = (s.setDecoder a' b' n p).setEncoder a b e := rfl

end Sys2Proof.Machine
end

