-- ==== Sys2Proof/Laws/Ops.lean ====
section
/-! SUPPORT. One lemma for each shared operation that says once everything it can do. -/

namespace Sys2Proof.Machine

/-- With enough fuel the loop takes every whole field: `bits / k` of them, and `bits mod k` bits are left. -/
theorem takeFields_count (k : Nat) (hk : 0 < k) (fuel acc bits : Nat) (hf : bits ≤ fuel * k) :
    (takeFields k fuel acc bits).1.length = bits / k ∧ (takeFields k fuel acc bits).2 = bits % k := by
  induction fuel generalizing bits with
  | zero =>
    have : bits = 0 := by omega
    subst this; simp [takeFields]
  | succ fuel ih =>
    unfold takeFields
    split
    · rename_i h
      have hle : bits - k ≤ fuel * k := by rw [Nat.succ_mul] at hf; omega
      obtain ⟨h1, h2⟩ := ih (bits - k) hle
      have hdiv : bits / k = (bits - k) / k + 1 := by
        conv_lhs => rw [show bits = bits - k + k by omega]
        rw [Nat.add_div_right _ hk]
      refine ⟨by simp [h1, hdiv], ?_⟩
      simp only [h2]
      conv_rhs => rw [show bits = bits - k + k by omega]
      rw [Nat.add_mod_right]
    · rename_i h
      have : bits < k := by omega
      simp [Nat.div_eq_of_lt this, Nat.mod_eq_of_lt this]

/-- The `j`-th field taken is the `k` bits of the accumulator below its `j`-th field boundary (R121, R173). -/
theorem takeFields_get (k fuel acc bits j : Nat) (hj : j < (takeFields k fuel acc bits).1.length) :
    (takeFields k fuel acc bits).1[j] = acc / 2 ^ (bits - k * (j + 1)) % 2 ^ k := by
  induction fuel generalizing bits j with
  | zero => simp [takeFields] at hj
  | succ fuel ih =>
    by_cases h : k ≤ bits
    · have e : takeFields k (fuel + 1) acc bits =
          (((acc >>> (bits - k)) &&& (2 ^ k - 1)) :: (takeFields k fuel acc (bits - k)).1,
            (takeFields k fuel acc (bits - k)).2) := by
        simp [takeFields, h]
      simp only [e] at hj ⊢
      cases j with
      | zero => simp [Nat.and_two_pow_sub_one_eq_mod, Nat.shiftRight_eq_div_pow]
      | succ j =>
        have hj' : j < (takeFields k fuel acc (bits - k)).1.length := by simpa using hj
        rw [List.getElem_cons_succ, ih (bits - k) j hj']
        congr 3
        rw [Nat.mul_add k (j + 1) 1]; omega
    · simp [takeFields, h] at hj

/-- Both units call the loop with `bits` as its fuel, which is enough. -/
theorem takeFields_bits (k : Nat) (hk : 0 < k) (acc bits : Nat) :
    (takeFields k bits acc bits).1.length = bits / k ∧ (takeFields k bits acc bits).2 = bits % k :=
  takeFields_count k hk bits acc bits (Nat.le_mul_of_pos_right _ hk)

/-- The padding loop emits `=` until the count of symbols is a multiple of 8 (R122). -/
theorem padding_eq (e : BitVec 3) : padding e = List.replicate ((8 - e.toNat) % 8) padChar := by
  revert e; decide

theorem finalSymbol_length (eacc : BitVec 12) (ebits : BitVec 4) :
    (finalSymbol eacc ebits).length = if 0 < ebits.toNat then 1 else 0 := by
  unfold finalSymbol; split <;> rfl

/-- The final symbol: the held bits at the top of a 5-bit field, zeros below them (R122). -/
theorem finalSymbol_eq (eacc : BitVec 12) (ebits : BitVec 4) :
    finalSymbol eacc ebits =
      if ebits.toNat = 0 then [] else [alpha (BitVec.ofNat 5 (eacc.toNat * 2 ^ (5 - ebits.toNat) % 32))] := by
  unfold finalSymbol
  by_cases h : ebits.toNat = 0
  · simp [h]
  · rw [if_pos (by omega), if_neg h, symbolChar, Nat.shiftLeft_eq, show (0x1F : Nat) = 2 ^ 5 - 1 by rfl,
      Nat.and_two_pow_sub_one_eq_mod]

theorem groupBytes_length (dacc : BitVec 40) (dbits : BitVec 6) :
    (groupBytes dacc dbits).length = dbits.toNat / 8 := by
  simp only [groupBytes, List.length_map]
  exact (takeFields_bits 8 (by decide) _ _).1

/-- The `i`-th byte of a group (R173). -/
theorem groupBytes_get (dacc : BitVec 40) (dbits : BitVec 6) (i : Nat) (hi : i < (groupBytes dacc dbits).length) :
    ((groupBytes dacc dbits)[i]).toNat = dacc.toNat / 2 ^ (dbits.toNat - 8 * (i + 1)) % 256 := by
  simp [groupBytes, takeFields_get, Config.byteBits]

/-- What `acceptChar` can do: shift in and count, only count, poison and count, or nothing (R171, R172). -/
theorem acceptChar_cases (c : Octet) (s : State) :
    (validChar c = true ∧ s.dpois = false ∧ acceptChar c s = (s.shiftIn (classify c)).countChar) ∨
    (validChar c = true ∧ s.dpois = true ∧ acceptChar c s = s.countChar) ∨
    (validChar c = false ∧ s.strict = true ∧ acceptChar c s = s.poison.countChar) ∨
    (validChar c = false ∧ s.strict = false ∧ acceptChar c s = s) := by
  unfold acceptChar
  cases validChar c <;> cases s.dpois <;> cases s.strict <;> simp

/-- What `Close` reports: the error of a poisoned group, or the bytes of one that is not (R173). -/
theorem closeResponse_cases (s : State) :
    (s.dpois = true ∧ closeResponse s = raiseError .decodeSymbolError Response.zero) ∨
    (s.dpois = false ∧ closeResponse s = Response.ofBurst (groupBytes s.dacc s.dbits)) := by
  unfold closeResponse
  cases s.dpois <;> simp

/-- Shifting a field of `k` bits in behind an accumulator is multiplying by `2^k` and adding (R121, R172). -/
theorem shiftLeft_or_eq (k acc v : Nat) (hv : v < 2 ^ k) : (acc <<< k) ||| v = acc * 2 ^ k + v := by
  rw [← Nat.shiftLeft_add_eq_or_of_lt hv, Nat.shiftLeft_eq]

/-- A response made of a burst carries it, and no error. -/
theorem carries_ofBurst (out : List Octet) (h : out.length ≤ 8) : (Response.ofBurst out).Carries out false :=
  ⟨ofBurst_n_toNat out h, fun i hi => lane_ofBurst_getD out i hi, rfl, rfl, rfl, rfl⟩

/-- Running one sequence of commands after another is running the two joined. -/
theorem runCommands_append (a b : List Instr) (s : State) :
    runCommands (a ++ b) s =
      match runCommands a s with
      | .next t => runCommands b t
      | .fault r => .fault r
      | .refused r => .refused r := by
  induction a generalizing s with
  | nil => rfl
  | cons i rest ih =>
    simp only [List.cons_append, runCommands]
    cases exec i s with
    | next t => exact ih t
    | fault r => rfl
    | refused r => rfl

/-- A command's meaning neither reads nor writes the host's events (R36). -/
theorem exec_advance (i : Instr) (s : State) (l : List HostEvent) :
    exec i (s.advance l) =
      match exec i s with
      | .next t => .next (t.advance l)
      | .fault r => .fault r
      | .refused r => .refused r := by
  cases i with
  | decPush c =>
    simp only [exec, execDecPush]
    rcases acceptChar_cases c s with ⟨h, h', e⟩ | ⟨h, h', e⟩ | ⟨h, h', e⟩ | ⟨h, h', e⟩ <;>
      rcases acceptChar_cases c (s.advance l) with ⟨k, k', f⟩ | ⟨k, k', f⟩ | ⟨k, k', f⟩ | ⟨k, k', f⟩ <;>
      simp_all <;> split <;> rfl
  | _ => rfl

/-- What a step can do. -/
theorem step_cases (s t : State) (h : step s = .next t) :
    (s.inputs = [] ∧ t = s) ∨
    (∃ rest, s.inputs = .reset :: rest ∧ t = applyReset (s.advance rest)) ∨
    (∃ rest, s.inputs = .read :: rest ∧ s.resetSeen = true ∧ t = takeResponse (s.advance rest)) ∨
    (∃ w i rest, s.inputs = .issue w :: rest ∧ s.resetSeen = true ∧ decode w = .ok i ∧
      exec i (s.advance rest) = .next t) ∨
    (∃ w r rest, s.inputs = .issue w :: rest ∧ s.resetSeen = true ∧ decode w = .error r ∧
      t = illegalCommand (s.advance rest)) := by
  unfold step nextAction at h
  split at h
  · next heq =>
    split at heq
    · next hin => exact .inl ⟨hin, by simpa using h.symm⟩
    · next e rest hin => cases e <;> simp only [respondTo] at heq <;> repeat' split at heq
                         all_goals simp_all
  · next i u heq =>
    split at heq
    · simp at heq
    · next e rest hin =>
      cases e with
      | reset => simp [respondTo] at heq
      | read => simp only [respondTo] at heq; split at heq <;> simp at heq
      | issue w =>
        simp only [respondTo] at heq
        split at heq
        · next hr =>
          split at heq
          · next hd =>
            simp only [Action.execute.injEq] at heq
            obtain ⟨rfl, rfl⟩ := heq
            exact .inr (.inr (.inr (.inl ⟨w, _, rest, hin, by simpa using hr, hd, h⟩)))
          · simp at heq
        · simp at heq
  · next u heq =>
    simp only [Host.Outcome.next.injEq] at h
    subst h
    split at heq
    · simp at heq
    · next e rest hin =>
      cases e with
      | reset =>
        simp only [respondTo, Action.become.injEq] at heq
        exact .inr (.inl ⟨rest, hin, heq.symm⟩)
      | read =>
        simp only [respondTo] at heq
        split at heq
        · next hr =>
          simp only [Action.become.injEq] at heq
          exact .inr (.inr (.inl ⟨rest, hin, by simpa using hr, heq.symm⟩))
        · simp at heq
      | issue w =>
        simp only [respondTo] at heq
        split at heq
        · next hr =>
          split at heq
          · simp at heq
          · next r hd =>
            simp only [Action.become.injEq] at heq
            exact .inr (.inr (.inr (.inr ⟨w, r, rest, hin, by simpa using hr, hd, heq.symm⟩)))
        · simp at heq
  · simp at h

end Sys2Proof.Machine
end

