-- ==== Sys2Proof/Laws/PerInstr.lean ====
section
/-! SUPPORT. The statements made per instruction (LAWS.json). -/

namespace Sys2Proof

theorem opField_commandWord (op : BitVec 4) (arg : Octet) : opField (commandWord op arg) = op := by
  apply BitVec.eq_of_getLsbD_eq
  intro i hi
  have h8 : ¬ 8 + i < 8 := by omega
  have h12 : 8 + i < 12 := by omega
  simp [opField, commandWord, hi, h12]

theorem argField_commandWord (op : BitVec 4) (arg : Octet) : argField (commandWord op arg) = arg := by
  apply BitVec.eq_of_getLsbD_eq
  intro i hi
  have h12 : i < 12 := by omega
  simp [argField, commandWord, hi, h12]

/-- The word of an opcode and an operand as a number: `op` in the upper place, `arg` in the lower (R80, R100). -/
theorem commandWord_toNat (op : BitVec 4) (arg : Octet) : (commandWord op arg).toNat = op.toNat * 256 + arg.toNat := by
  have ho := op.isLt
  have ha := arg.isLt
  rw [commandWord, BitVec.toNat_or, BitVec.toNat_shiftLeft, BitVec.toNat_setWidth, BitVec.toNat_setWidth,
    Nat.mod_eq_of_lt (a := arg.toNat) (by omega), Nat.mod_eq_of_lt (a := op.toNat) (by omega), Nat.shiftLeft_eq,
    Nat.mod_eq_of_lt (by omega), ← Nat.shiftLeft_eq, ← Nat.shiftLeft_add_eq_or_of_lt (i := 8) ha, Nat.shiftLeft_eq]

end Sys2Proof

/-- The word of a command carries its opcode number in `op` and its octet, all of it, in `arg` (R80, R85). -/
def Sys2Proof.Laws.Encodes.Statement (i : Sys2Proof.Instr) : Prop :=
  Sys2Proof.opField (Sys2Proof.encode i) = i.mnemonic.opcode ∧ Sys2Proof.argField (Sys2Proof.encode i) = i.arg

namespace Sys2Proof.Laws

theorem Encodes.encPush (arg : Octet) : Encodes.Statement (.encPush arg) :=
  ⟨opField_commandWord _ _, argField_commandWord _ _⟩
theorem Encodes.encFin (arg : Octet) : Encodes.Statement (.encFin arg) :=
  ⟨opField_commandWord _ _, argField_commandWord _ _⟩
theorem Encodes.encClr (arg : Octet) : Encodes.Statement (.encClr arg) :=
  ⟨opField_commandWord _ _, argField_commandWord _ _⟩
theorem Encodes.decPush (arg : Octet) : Encodes.Statement (.decPush arg) :=
  ⟨opField_commandWord _ _, argField_commandWord _ _⟩
theorem Encodes.decFin (arg : Octet) : Encodes.Statement (.decFin arg) :=
  ⟨opField_commandWord _ _, argField_commandWord _ _⟩
theorem Encodes.decClr (arg : Octet) : Encodes.Statement (.decClr arg) :=
  ⟨opField_commandWord _ _, argField_commandWord _ _⟩
theorem Encodes.cls (arg : Octet) : Encodes.Statement (.cls arg) :=
  ⟨opField_commandWord _ _, argField_commandWord _ _⟩
theorem Encodes.decCfg (arg : Octet) : Encodes.Statement (.decCfg arg) :=
  ⟨opField_commandWord _ _, argField_commandWord _ _⟩

end Sys2Proof.Laws
end

