-- ==== Sys2Proof/Tests/Slice0.lean ====
section
/-! SUPPORT. The model's own tests: words written out from the opcode map, ill-formed terms that the checks refuse, one
step per command on a small state with the result the spec's tables give (spec/95_test_vectors.md), and for every
statement with hypotheses a state and operands that meet them (`witness_…`). -/

open Sys2Proof Sys2Proof.Machine

/-! ### Words and listings -/

theorem test_decode_encPush : decode 0b0001_01100110#12 = .ok (.encPush 0x66#8) := by decide
theorem test_decode_encFin : decode 0b0010_00000000#12 = .ok (.encFin 0x00#8) := by decide
theorem test_decode_encClr : decode 0b0011_10100101#12 = .ok (.encClr 0xA5#8) := by decide
theorem test_decode_decPush : decode 0b0101_01000011#12 = .ok (.decPush 0x43#8) := by decide
theorem test_decode_decFin : decode 0b0110_11111111#12 = .ok (.decFin 0xFF#8) := by decide
theorem test_decode_decClr : decode 0b0111_01111111#12 = .ok (.decClr 0x7F#8) := by decide
theorem test_decode_cls : decode 0b1000_01100001#12 = .ok (.cls 0x61#8) := by decide
theorem test_decode_decCfg : decode 0b1001_00000001#12 = .ok (.decCfg 0x01#8) := by decide
theorem test_decode_reserved : decode 0b1010_00000000#12 = .error (.reservedOpcode 0xA#4) := by decide

theorem test_encode_decPush : encode (.decPush 0x43#8) = 0x543#12 := by decide
theorem test_encode_decCfg : encode (.decCfg 0xFE#8) = 0x9FE#12 := by decide

/-- No two rows of the opcode map match one word (R85). -/
theorem test_opcode_rows_disjoint :
    opcodeMap.Pairwise (fun a b => a.pattern &&& (a.mask &&& b.mask) ≠ b.pattern &&& (a.mask &&& b.mask)) := by decide

theorem test_table_word : decodeTableWord 12 0x200 = some (.encFin 0x00#8) := by decide
theorem test_table_word_in_bytes : decodeTableWord 16 0x0861 = some (.cls 0x61#8) := by decide
theorem test_table_word_refused : decodeTableWord 16 0x0FFF = none := by decide

theorem test_wellFormed_refuses_encFin : Instr.wellFormed (.encFin 0x01#8) = false := by decide
theorem test_wellFormed_refuses_encClr : Instr.wellFormed (.encClr 0x80#8) = false := by decide
theorem test_wellFormed_refuses_decFin : Instr.wellFormed (.decFin 0xAB#8) = false := by decide
theorem test_wellFormed_refuses_decClr : Instr.wellFormed (.decClr 0x7F#8) = false := by decide
theorem test_wellFormed_refuses_decCfg : Instr.wellFormed (.decCfg 0x03#8) = false := by decide
theorem test_wellFormed_accepts_decCfg : Instr.wellFormed (.decCfg 0x01#8) = true := by decide
theorem test_operand_refuses_256 : AsmOperand.wellFormed (.numeral 256) = false := by decide
theorem test_line_refuses_missing_operand : AsmLine.wellFormed ⟨.encPush, none⟩ = false := by decide
theorem test_line_refuses_extra_operand : AsmLine.wellFormed ⟨.decFin, some (.numeral 0)⟩ = false := by decide

/-- `ENC.PUSH 'f'` is 0x166 (R100). -/
theorem test_assemble_char : (AsmLine.assemble ⟨.encPush, some (.char 0x66#8)⟩).map encode = some 0x166#12 := by decide
theorem test_assemble_no_operand : (AsmLine.assemble ⟨.decFin, none⟩).map encode = some 0x600#12 := by decide
theorem test_assemble_refuses : AsmLine.assemble ⟨.cls, some (.numeral 300)⟩ = none := by decide
/-- `DECODE "CR"` (R101). -/
theorem test_pseudo_decode :
    (Pseudo.decode [0x43#8, 0x52#8]).expand.map encode = [0x543#12, 0x552#12, 0x600#12] := by decide
theorem test_pseudo_strict : Pseudo.decStrict.expand.map encode = [0x901#12] := by decide

/-! ### The tables -/

/-- The rows 3_ to 7_ of the table of R157; `.` is 32. -/
def classifierRows : List (List Nat) :=
  [ [ 0,  1,  2,  3,  4,  5,  6,  7,  8,  9, 32, 32, 32, 32, 32, 32],
    [32, 10, 11, 12, 13, 14, 15, 16, 17,  1, 18, 19,  1, 20, 21,  0],
    [22, 23, 24, 25, 26, 32, 27, 28, 29, 30, 31, 32, 32, 32, 32, 32],
    [32, 10, 11, 12, 13, 14, 15, 16, 17,  1, 18, 19,  1, 20, 21,  0],
    [22, 23, 24, 25, 26, 32, 27, 28, 29, 30, 31, 32, 32, 32, 32, 32] ]

theorem test_classifier_rows :
    (List.range 5).map (fun r => (List.range 16).map fun c => (classify (BitVec.ofNat 8 (16 * (r + 3) + c))).toNat) =
      classifierRows := by decide

theorem test_classifier_rows_0_to_2 :
    ((List.range 0x30).all fun c => classify (BitVec.ofNat 8 c) == 32#6) = true := by decide

theorem test_classifier_rows_8_to_15 :
    ((List.range 128).all fun c => classify (BitVec.ofNat 8 (128 + c)) == 32#6) = true := by decide

/-- R96: positions 24 and 28 of the alphabet, the source's slip (spec/90_conflicts.md C2). -/
theorem test_alpha_24_28 : alpha 24#5 = 0x52#8 ∧ alpha 28#5 = 0x57#8 := by decide

/-! ### One step per command -/

/-- The core with the given encoder registers. -/
def encState (eacc : BitVec 12) (ebits : BitVec 4) (esym : BitVec 3) : State :=
  State.reset.setEncoder eacc ebits esym

/-- The core with the given decoder registers and mode. -/
def decState (dacc : BitVec 40) (dbits : BitVec 6) (dcnt : BitVec 4) (dpois strict : Bool) : State :=
  (State.reset.setDecoder dacc dbits dcnt dpois).setStrict strict

/-- The state a step of word `w` leads to. -/
def afterWord (s : State) (w : Nat) : Option State :=
  match step (s.withFetchWord 12 w) with
  | .next t => some t
  | .fault _ => none
  | .refused _ => none

/-- The encoder registers and the packed responses after word `w`. -/
def encAfter (s : State) (w : Nat) : Option ((Nat × Nat × Nat) × List Nat) :=
  (afterWord s w).map fun t =>
    ((t.eacc.toNat, t.ebits.toNat, t.esym.toNat), t.rsps.map fun r => r.pack.toNat)

/-- The decoder registers, the mode and the packed responses after word `w`. -/
def decAfter (s : State) (w : Nat) : Option ((Nat × Nat × Nat × Bool) × Bool × List Nat) :=
  (afterWord s w).map fun t =>
    ((t.dacc.toNat, t.dbits.toNat, t.dcnt.toNat, t.dpois), t.strict, t.rsps.map fun r => r.pack.toNat)

/-- T-PUSH, 006/3/1 and byte 0x6F: `SQ`, 001/1/3. -/
theorem test_encPush_two_symbols :
    encAfter (encState 0x006#12 3#4 1#3) 0x16F = some ((1, 1, 3), [0x00020000000000005153]) := by decide
/-- T-PUSH, 00F/4/4 and byte 0xFF: `ZZ`, 003/2/6; the largest `eacc` inside the command. -/
theorem test_encPush_full :
    encAfter (encState 0x00F#12 4#4 4#3) 0x1FF = some ((3, 2, 6), [0x00020000000000005A5A]) := by decide
/-- T-FIN, 006/3/1: `R======`. -/
theorem test_encFin_six_pads :
    encAfter (encState 0x006#12 3#4 1#3) 0x200 = some ((0, 0, 0), [0x0007003D3D3D3D3D3D52]) := by decide
/-- T-FIN, 000/0/0: nothing; `arg` ignored. -/
theorem test_encFin_empty : encAfter State.reset 0x2FF = some ((0, 0, 0), [0]) := by decide
/-- T-ILL, 0x3A5 on 006/3/1. -/
theorem test_encClr : encAfter (encState 0x006#12 3#4 1#3) 0x3A5 = some ((0, 0, 0), [0]) := by decide
/-- T-DSTEP, filter, 07FFFFFFFF/35/7/0 and `Z`: five bytes FF. -/
theorem test_decPush_closes :
    decAfter (decState 0x07FFFFFFFF#40 35#6 7#4 false false) 0x55A =
      some ((0, 0, 0, false), false, [0x0005000000FFFFFFFFFF]) := by decide
/-- T-DSTEP, strict, 000000000C/5/1/0 and `U`: poisoned, 2 counted. -/
theorem test_decPush_poisons :
    decAfter (decState 0xC#40 5#6 1#4 false true) 0x555 = some ((0, 0, 2, true), true, [0]) := by decide
/-- T-DFIN, 0000066198/20/4/0: the bytes 66 19. -/
theorem test_decFin_two_bytes :
    decAfter (decState 0x66198#40 20#6 4#4 false false) 0x600 =
      some ((0, 0, 0, false), false, [0x00020000000000001966]) := by decide
/-- T-DFIN, strict, 0000000000/0/3/1: the error. -/
theorem test_decFin_poisoned :
    decAfter (decState 0#40 0#6 3#4 true true) 0x600 =
      some ((0, 0, 0, false), true, [0x08000000000000000000]) := by decide
/-- T-DFIN: `DEC.CLR` drops a poisoned group without `err` and keeps the mode. -/
theorem test_decClr :
    decAfter (decState 0#40 0#6 3#4 true true) 0x700 = some ((0, 0, 0, false), true, [0]) := by decide
/-- T-DFIN: 0x9FE selects filter mode, 0x9FF strict mode. -/
theorem test_decCfg_filter :
    decAfter (decState 0x198#40 10#6 2#4 false true) 0x9FE = some ((0, 0, 0, false), false, [0]) := by decide
theorem test_decCfg_strict :
    decAfter (decState 0x198#40 10#6 2#4 false true) 0x9FF = some ((0, 0, 0, false), true, [0]) := by decide
/-- T-CLS: `a` is 10, 0xE9 is invalid; the open group stays. -/
theorem test_cls_valid :
    decAfter (decState 0x198#40 10#6 2#4 false true) 0x861 =
      some ((0x198, 10, 2, false), true, [0x04A00000000000000000]) := by decide
theorem test_cls_invalid :
    decAfter State.reset 0x8E9 = some ((0, 0, 0, false), false, [0x02000000000000000000]) := by decide
/-- T-ILL: 0xB3D changes nothing. -/
theorem test_illegal :
    decAfter (decState 0x198#40 10#6 2#4 false true) 0xB3D =
      some ((0x198, 10, 2, false), true, [0x10000000000000000000]) := by decide

/-- A core that has not been reset, its registers as they may be. -/
def unresetState (inputs : List HostEvent) : State :=
  { encState 0xABC#12 9#4 5#3 with resetSeen := false, inputs := inputs }

theorem test_before_reset : step (unresetState [.issue 0x200#12]) = .refused .beforeReset := rfl
theorem test_first_reset : step (unresetState [.reset, .read]) = .next { State.reset with inputs := [.read] } := rfl
theorem test_read_takes_oldest :
    step { State.reset with inputs := [.read], rsps := [Response.ofBurst [0x43#8], Response.zero] } =
      .next { State.reset with rsps := [Response.zero] } := rfl

/-- The whole-call functions on `f` and `CR` (R124, R180). -/
theorem test_encText : encText [0x66#8] = [0x43#8, 0x52#8, 0x3D#8, 0x3D#8, 0x3D#8, 0x3D#8, 0x3D#8, 0x3D#8] := by decide
theorem test_bytesOf : bytesOf (symbolValues [0x43#8, 0x3D#8, 0x52#8]) = [0x66#8] := by decide
/-- R257, T-DF12: `CRCR` spells 66 19. -/
theorem test_bytesOf_run_together : bytesOf (symbolValues [0x43#8, 0x52#8, 0x43#8, 0x52#8]) = [0x66#8, 0x19#8] := by decide
theorem test_decCall_fails : decCall [0x43#8, 0x55#8] = ([], false) := by decide

/-! ### Witnesses: for each statement with hypotheses, a state and operands that meet all of them -/

theorem witness_OpAloneSelectsTheCommand_bounds :
    (0x000#12 : Command).toNat / 256 = 0 ∧ (0x1FF#12 : Command).toNat / 256 = 1 ∧ (0x2FF#12 : Command).toNat / 256 = 2 ∧
    (0x300#12 : Command).toNat / 256 = 3 ∧ (0x4FF#12 : Command).toNat / 256 = 4 ∧ (0x500#12 : Command).toNat / 256 = 5 ∧
    (0x6FF#12 : Command).toNat / 256 = 6 ∧ (0x700#12 : Command).toNat / 256 = 7 ∧ (0x8FF#12 : Command).toNat / 256 = 8 ∧
    (0x9FF#12 : Command).toNat / 256 = 9 ∧ 10 ≤ (0xA00#12 : Command).toNat / 256 := by decide

theorem witness_DecodeEncodeAgree : decode 0x9FF#12 = .ok (.decCfg 0xFF#8) := by decide

theorem witness_ListingsAssemble :
    AsmLine.assemble ⟨.decPush, some (.numeral 255)⟩ = some (.decPush 0xFF#8) ∧
    AsmLine.assemble ⟨.cls, some (.char 0x61#8)⟩ = some (.cls 0x61#8) ∧
    AsmLine.assemble ⟨.encFin, none⟩ = some (.encFin 0x00#8) := by decide

theorem witness_StepKeepsSound :
    State.Sound { encState 0x006#12 3#4 1#3 with inputs := [.issue 0x16F#12] } ∧
    ∃ t, step { encState 0x006#12 3#4 1#3 with inputs := [.issue 0x16F#12] } = .next t :=
  ⟨by decide, _, rfl⟩

/-- A core with one command and then a read to come. -/
def stepState (w : Command) : State := { State.reset with inputs := [.issue w, .read] }

theorem witness_StepRunsTheDecodedCommand :
    (stepState 0x543#12).resetSeen = true ∧ (stepState 0x543#12).inputs = .issue 0x543#12 :: [.read] ∧
    decode 0x543#12 = .ok (.decPush 0x43#8) := by decide

theorem witness_ReservedOpcodeOnlyReportsIll :
    (stepState 0x4AB#12).resetSeen = true ∧ (stepState 0x4AB#12).inputs = .issue 0x4AB#12 :: [.read] ∧
    (0x4AB#12 : Command).toNat / 256 = 4 ∧ (0x0FF#12 : Command).toNat / 256 = 0 ∧
    10 ≤ (0xA00#12 : Command).toNat / 256 := by decide

theorem witness_ResetEventSetsTheResetState : (unresetState [.reset]).inputs = .reset :: [] := by decide

theorem witness_CommandBeforeResetIsRefused :
    (unresetState [.issue 0x166#12]).resetSeen = false ∧
    (unresetState [.issue 0x166#12]).inputs = .issue 0x166#12 :: [] := by decide

/-- A core with responses waiting and a read to come. -/
def readState (rsps : List Response) : State := { State.reset with inputs := [.read], rsps := rsps }

theorem witness_ReadTakesTheOldestResponse :
    ((readState [Response.zero]).resetSeen = true ∧ (readState [Response.zero]).inputs = .read :: [] ∧
      (readState [Response.zero]).rsps = Response.zero :: []) ∧
    ((readState []).resetSeen = true ∧ (readState []).inputs = .read :: [] ∧ (readState []).rsps = []) ∧
    State.reset.inputs = [] := by decide

theorem witness_EveryWordGetsOneResponse :
    (stepState 0xFFF#12).resetSeen = true ∧ (stepState 0xFFF#12).inputs = .issue 0xFFF#12 :: [.read] := by decide

theorem witness_PresentedCommandsRunInOrder : State.reset.resetSeen = true := by decide

theorem witness_RecordLayout_bounds : (0 : Nat) < 8 ∧ (7 : Nat) < 8 := by decide

theorem witness_AlphabetTable_bounds :
    (9#5 : SymVal).toNat < 10 ∧ (10 ≤ (10#5 : SymVal).toNat ∧ (17#5 : SymVal).toNat < 18) ∧
    (18 ≤ (18#5 : SymVal).toNat ∧ (19#5 : SymVal).toNat < 20) ∧ (20 ≤ (20#5 : SymVal).toNat ∧ (21#5 : SymVal).toNat < 22) ∧
    (22 ≤ (22#5 : SymVal).toNat ∧ (26#5 : SymVal).toNat < 27) ∧ 27 ≤ (27#5 : SymVal).toNat := by decide

theorem witness_ClassifierRules_each_case :
    (classify 0x30#8).toNat = 0 ∧ (classify 0x39#8).toNat = 9 ∧ (classify 0x3A#8).toNat = 32 ∧
    (classify 0x49#8).toNat = 1 ∧ (classify 0x6C#8).toNat = 1 ∧ (classify 0x6F#8).toNat = 0 ∧
    (classify 0x41#8).toNat = 10 ∧ (classify 0x7A#8).toNat = 31 ∧ (classify 0x60#8).toNat = 32 ∧
    (classify 0x7B#8).toNat = 32 := by decide

theorem witness_ClassifierInvertsTheAlphabet :
    (0x61 ≤ (0x61#8 : Octet).toNat ∧ (0x61#8 : Octet).toNat ≤ 0x7A) ∧
    (0x61 ≤ (0x7A#8 : Octet).toNat ∧ (0x7A#8 : Octet).toNat ≤ 0x7A) := by decide

theorem witness_EncPushEmitsWholeSymbols :
    (encState 0x000#12 0#4 0#3).EncInv ∧ (encState 0x00F#12 4#4 4#3).EncInv := by decide

theorem witness_EncFinFlushesAndPads :
    ((encState 0x000#12 0#4 0#3).EncInv ∧ (encState 0x000#12 0#4 0#3).EncPhase) ∧
    ((encState 0x00F#12 4#4 4#3).EncInv ∧ (encState 0x00F#12 4#4 4#3).EncPhase) := by decide

theorem witness_EncFinTailByByteCount :
    (encState 0x002#12 2#4 6#3).EncInv ∧ (encState 0x002#12 2#4 6#3).ebits.toNat = (8 * 4) % 5 ∧
    (encState 0x002#12 2#4 6#3).esym.toNat = (8 * 4 / 5) % 8 := by decide

theorem witness_EncoderEmitsOnlyItsAlphabet :
    isEncoderCommand (.encPush 0x00#8) = true ∧ isEncoderCommand (.encFin 0x00#8) = true ∧
    isEncoderCommand (.encClr 0x00#8) = true := by decide

theorem witness_IgnoredOperandBitsHaveNoEffect : (0xFE#8 : Octet).toNat % 2 = (0x00#8 : Octet).toNat % 2 := by decide

theorem witness_DecPushAcceptsAValidSymbol :
    ((decState 0x18000000#40 30#6 6#4 false false).DecInv ∧ (classify 0x43#8).toNat < 32 ∧
      (decState 0x18000000#40 30#6 6#4 false false).dcnt.toNat < 7) ∧
    ((decState 0#40 0#6 6#4 true true).DecInv ∧ (decState 0#40 0#6 6#4 true true).dcnt.toNat < 7) := by decide

theorem witness_DecPushSkipsInFilterMode :
    (decState 0x07FFFFFFFF#40 35#6 7#4 false false).DecInv ∧ classify 0x3D#8 = 32#6 ∧
    (decState 0x07FFFFFFFF#40 35#6 7#4 false false).strict = false := by decide

theorem witness_DecPushPoisonsInStrictMode :
    (decState 0xC#40 5#6 1#4 false true).DecInv ∧ classify 0x55#8 = 32#6 ∧
    (decState 0xC#40 5#6 1#4 false true).strict = true ∧ (decState 0xC#40 5#6 1#4 false true).dcnt.toNat < 7 := by decide

theorem witness_EighthSymbolEmitsFiveBytes :
    (decState 0x07FFFFFFFF#40 35#6 7#4 false true).DecInv ∧ (classify 0x6C#8).toNat < 32 ∧
    (decState 0x07FFFFFFFF#40 35#6 7#4 false true).dcnt.toNat = 7 ∧
    (decState 0x07FFFFFFFF#40 35#6 7#4 false true).dpois = false := by decide

theorem witness_EighthCharacterFailsAPoisonedGroup :
    ((decState 0#40 0#6 7#4 true true).DecInv ∧ (decState 0#40 0#6 7#4 true true).dcnt.toNat = 7 ∧
      (decState 0#40 0#6 7#4 true true).strict = true ∧ (decState 0#40 0#6 7#4 true true).dpois = true) ∧
    ((decState 0x07FFFFFFFF#40 35#6 7#4 false true).DecInv ∧ classify 0x3D#8 = 32#6) := by decide

theorem witness_DecFinClosesTheGroup :
    ((decState 0#40 0#6 3#4 true true).DecInv ∧ (decState 0#40 0#6 3#4 true true).dpois = true) ∧
    ((decState 0x07FFFFFFFF#40 35#6 7#4 false false).DecInv ∧
      (decState 0x07FFFFFFFF#40 35#6 7#4 false false).dpois = false) := by decide

/-- `CR` and `CS` (R179). -/
theorem witness_DiscardedBitsDoNotShow :
    (decState 0x198#40 10#6 2#4 false false).dpois = false ∧ (decState 0x199#40 10#6 2#4 false false).dpois = false ∧
    (decState 0x199#40 10#6 2#4 false false).dbits = (decState 0x198#40 10#6 2#4 false false).dbits ∧
    (0x199#40 : BitVec 40).toNat / 2 ^ (10 % 8) = (0x198#40 : BitVec 40).toNat / 2 ^ (10 % 8) := by decide

theorem witness_EncoderCommandsFrame :
    isEncoderCommand (.encPush 0x66#8) = true ∧ ∃ t, exec (.encPush 0x66#8) State.reset = .next t := ⟨by decide, _, rfl⟩

theorem witness_DecoderCommandsFrame :
    isEncoderCommand (.cls 0x66#8) = false ∧ (∀ a, Instr.cls 0x66#8 ≠ .decCfg a) ∧ (∃ c, Instr.cls 0x66#8 = .cls c) ∧
    ∃ t, exec (.cls 0x66#8) State.reset = .next t :=
  ⟨by decide, by simp, ⟨_, rfl⟩, _, rfl⟩

theorem witness_ResponseDependsOnTheOwnUnitOnly :
    State.SameEncoder State.reset (decState 0xC#40 5#6 1#4 false true) ∧
    (State.SameDecoder State.reset (encState 0x006#12 3#4 1#3) ∧ (encState 0x006#12 3#4 1#3).strict = State.reset.strict) := by
  decide

theorem witness_UnitsCommute :
    isEncoderCommand (.encPush 0x66#8) = true ∧ isEncoderCommand (.decPush 0x43#8) = false := by decide

theorem witness_DecodeSymbolErrorOnlyInStrictMode :
    (decState 0#40 0#6 3#4 true true).DecInv ∧
    ∃ t r, exec (.decFin 0x00#8) (decState 0#40 0#6 3#4 true true) = .next t ∧
      t.rsps = (decState 0#40 0#6 3#4 true true).rsps ++ [r] ∧ r.err = true :=
  ⟨by decide, _, _, rfl, rfl, rfl⟩

theorem witness_BurstSizesByCommand :
    (encState 0x006#12 3#4 1#3).EncInv ∧ (encState 0x006#12 3#4 1#3).EncPhase ∧ (encState 0x006#12 3#4 1#3).DecInv := by
  decide

theorem witness_NoRegisterWriteTruncates :
    (encState 0x00F#12 4#4 4#3).EncInv ∧
    ((decState 0x07FFFFFFFF#40 35#6 7#4 false false).DecInv ∧ (classify 0x5A#8).toNat < 32 ∧
      (decState 0x07FFFFFFFF#40 35#6 7#4 false false).dpois = false) ∧
    ((decState 0#40 0#6 7#4 true true).DecInv ∧ (decState 0#40 0#6 7#4 true true).strict = true) := by decide

theorem witness_FinWithNothingPendingDoesNothing :
    (decState 0xC#40 5#6 1#4 false true).EncCleared ∧ (encState 0x006#12 3#4 1#3).DecCleared := by decide

/-- Meets the hypotheses of EncoderCountersFollowTheBytes, EncodeCallComputesEnc and EncodedLength. -/
theorem witness_whole_encode_call : (decState 0xC#40 5#6 1#4 false true).EncCleared := by decide

theorem witness_EncodingInChunksOfFive :
    [0x66#8, 0x6F#8, 0x6F#8, 0x62#8, 0x61#8].length % 5 = 0 ∧ ([0x66#8] : List Octet).length % 5 ≠ 0 ∧
    ([0x72#8] : List Octet) ≠ [] := by decide

theorem witness_AccumulatorWidthDoesNotShow :
    (∀ w, some 12 = some w → 12 ≤ w) ∧ (∀ w, (none : Option Nat) = some w → 12 ≤ w) ∧
    State.reset.EncCleared :=
  ⟨by simp, by simp, by decide⟩

theorem witness_FilterModeComputesBytes :
    (encState 0x006#12 3#4 1#3).DecCleared ∧ (encState 0x006#12 3#4 1#3).strict = false := by decide

/-- Meets the hypotheses of StrictModeDecodesByWindows and StrictModeLosesThePaddedTail. -/
theorem witness_whole_text_in_strict_mode :
    (decState 0#40 0#6 0#4 false true).DecCleared ∧ (decState 0#40 0#6 0#4 false true).strict = true := by decide

/-- The clauses of StrictModeDecodesByWindows on a text of 9 characters: its 8th, its 9th and the `DEC.FIN`. -/
theorem witness_StrictModeDecodesByWindows_clauses :
    (7 % 8 = 7 ∨ 7 = 9) ∧ ¬(8 % 8 = 7 ∨ 8 = 9) ∧ (9 % 8 = 7 ∨ 9 = 9) := by decide

theorem witness_FilterModeRoundTrip :
    State.reset.EncCleared ∧ State.reset.DecCleared ∧ State.reset.strict = false := by decide
end

/-! Proofs about one step: what the head of the host's events makes the step do (spec/00_scope.md R5). -/

namespace Sys2Proof.Machine

/-- The first of the host's events alone selects the action; those after it stay in the state. -/
theorem nextAction_of_inputs_cons {s : State} {e : HostEvent} {rest : List HostEvent}
    (hin : s.inputs = e :: rest) : nextAction s = respondTo e (s.advance rest) := by
  simp only [nextAction, hin]

/-- After reset a word is judged by its decoding only, not by the responses that wait. -/
theorem respondTo_issue_of_decode_ok {s : State} {w : Command} {i : Instr}
    (hreset : s.resetSeen = true) (hdec : decode w = .ok i) : respondTo (.issue w) s = .execute i s := by
  simp only [respondTo, hreset, hdec, if_true]

/-- A step that executes a command is that command's `exec`, in the state the action holds. -/
theorem step_of_nextAction_execute {s t : State} {i : Instr} (h : nextAction s = .execute i t) :
    step s = exec i t := by
  simp only [step, h]

/-- Settles O8: the event at the head selects the action, its word decodes to `i`, so the step is `exec i` in the
advanced state. -/
theorem stepRunsTheDecodedCommand : Obligations.StepRunsTheDecodedCommand := by
  intro s w i rest hreset hin hdec
  have haction : nextAction s = .execute i (s.advance rest) :=
    (nextAction_of_inputs_cons hin).trans (respondTo_issue_of_decode_ok hreset hdec)
  exact step_of_nextAction_execute haction

end Sys2Proof.Machine

/-! What one command does, in one place: each command writes registers of its own unit and then produces one response
(spec/00_scope.md R6, spec/10_state.md R36, R37). The proofs about single commands go through `exec_eq` and the two
lemmas on the shape of `commandEffect`. -/

namespace Sys2Proof.Machine

/-- The symbols `ENC.PUSH b` takes from the held bits and the byte, and the count of bits left (R121). -/
def pushFields (b : Octet) (s : State) : List Nat × Nat :=
  takeFields Config.symBits (s.ebits.toNat + Config.byteBits) ((s.eacc.toNat <<< Config.byteBits) ||| b.toNat)
    (s.ebits.toNat + Config.byteBits)

/-- The state a command leaves, its response apart; `exec_eq` ties it to `exec`. -/
def commandEffect (i : Instr) (s : State) : State :=
  match i with
  | .encPush b => s.setEncoder
      (BitVec.ofNat 12 (((s.eacc.toNat <<< Config.byteBits) ||| b.toNat) &&& ((1 <<< (pushFields b s).2) - 1)))
      (BitVec.ofNat 4 (pushFields b s).2) (s.esym + BitVec.ofNat 3 (pushFields b s).1.length)
  | .encFin _ => s.clearEncoder
  | .encClr _ => s.clearEncoder
  | .decPush c =>
    if (acceptChar c s).dcnt.toNat = Config.groupSyms then (acceptChar c s).clearDecoder else acceptChar c s
  | .decFin _ => s.clearDecoder
  | .decClr _ => s.clearDecoder
  | .cls _ => s
  | .decCfg m => s.clearDecoder.setStrict (modeBit m)

/-- The response a command produces; `exec_eq` ties it to `exec`. -/
def commandResponse (i : Instr) (s : State) : Response :=
  match i with
  | .encPush b => Response.ofBurst ((pushFields b s).1.map symbolChar)
  | .encFin _ =>
    Response.ofBurst (finalSymbol s.eacc s.ebits ++
      padding (s.esym + BitVec.ofNat 3 (finalSymbol s.eacc s.ebits).length))
  | .encClr _ => Response.zero
  | .decPush c =>
    if (acceptChar c s).dcnt.toNat = Config.groupSyms then closeResponse (acceptChar c s) else Response.zero
  | .decFin _ => closeResponse s
  | .decClr _ => Response.zero
  | .cls c => Response.classified c
  | .decCfg _ => Response.zero

/-- Every command completes: it leaves its effect and puts one response behind the earlier ones. -/
theorem exec_eq (i : Instr) (s : State) : exec i s = .next ((commandEffect i s).respond (commandResponse i s)) := by
  cases i with
  | decPush c =>
    simp only [exec, execDecPush, commandEffect, commandResponse]
    split <;> rfl
  | _ => rfl

theorem exec_eq_next_iff {i : Instr} {s t : State} :
    exec i s = .next t ↔ t = (commandEffect i s).respond (commandResponse i s) := by
  rw [exec_eq, Host.Outcome.next.injEq, eq_comm]

theorem runCommands_cons (i : Instr) (is : List Instr) (s : State) :
    runCommands (i :: is) s = runCommands is ((commandEffect i s).respond (commandResponse i s)) := by
  simp only [runCommands, exec_eq]

/-- Accepting a character writes nothing but the decoder's registers (R171, R172). -/
theorem acceptChar_eq_setDecoder (c : Octet) (s : State) :
    ∃ a b n p, acceptChar c s = s.setDecoder a b n p := by
  rcases acceptChar_cases c s with ⟨-, -, h⟩ | ⟨-, -, h⟩ | ⟨-, -, h⟩ | ⟨-, -, h⟩ <;> exact ⟨_, _, _, _, h⟩

/-- The encoder's rows of R37: such a command writes the encoder's registers only. -/
theorem commandEffect_encoder {i : Instr} (h : isEncoderCommand i = true) (s : State) :
    ∃ a b e, commandEffect i s = s.setEncoder a b e := by
  cases i with
  | encPush _ | encFin _ | encClr _ => exact ⟨_, _, _, rfl⟩
  | decPush _ | decFin _ | decClr _ | cls _ | decCfg _ => cases h

/-- The other rows of R37: such a command writes the decoder's registers only, and `strict` if it is `DEC.CFG`. -/
theorem commandEffect_decoder {i : Instr} (h : isEncoderCommand i = false) (s : State) :
    ∃ a b n p m, commandEffect i s = { s with dacc := a, dbits := b, dcnt := n, dpois := p, strict := m } ∧
      ((∀ m, i ≠ .decCfg m) → m = s.strict) := by
  cases i with
  | decPush c =>
    obtain ⟨a, b, n, p, hc⟩ := acceptChar_eq_setDecoder c s
    rw [commandEffect, hc]
    split <;> exact ⟨_, _, _, _, s.strict, rfl, fun _ => rfl⟩
  | decFin _ | decClr _ | cls _ => exact ⟨_, _, _, _, s.strict, rfl, fun _ => rfl⟩
  | decCfg m => exact ⟨_, _, _, _, modeBit m, rfl, fun h => absurd rfl (h m)⟩
  | encPush _ | encFin _ | encClr _ => cases h

/-- No command touches the host's side or the responses already produced (R36, R67). -/
theorem commandEffect_host (i : Instr) (s : State) :
    s.SameHost (commandEffect i s) ∧ (commandEffect i s).rsps = s.rsps := by
  cases h : isEncoderCommand i with
  | true => obtain ⟨a, b, e, hi⟩ := commandEffect_encoder h s; rw [hi]; exact ⟨⟨rfl, rfl⟩, rfl⟩
  | false => obtain ⟨a, b, n, p, m, hi, -⟩ := commandEffect_decoder h s; rw [hi]; exact ⟨⟨rfl, rfl⟩, rfl⟩

end Sys2Proof.Machine

/-! The invariants of spec/10_state.md R31 and R32, one operation at a time. -/

namespace Sys2Proof.Machine

/-! ### The encoder -/

/-- The whole of R31 after `k` bytes: the two counters follow `k`, and only held bits stand in the accumulator. -/
abbrev State.EncAfter (s : State) (k : Nat) : Prop :=
  s.ebits.toNat = (8 * k) % 5 ∧ s.esym.toNat = (8 * k / 5) % 8 ∧ s.eacc.toNat < 2 ^ s.ebits.toNat

/-- R31 as the statements have it is R31 after some number of bytes; five bytes leave the counters as they were. -/
theorem encInv_and_encPhase_iff {s : State} : s.EncInv ∧ s.EncPhase ↔ ∃ k, s.EncAfter k := by
  constructor
  · rintro ⟨⟨-, hacc, -⟩, k, -, hbits, hsym⟩
    exact ⟨k, hbits, hsym, hacc⟩
  · rintro ⟨k, hbits, hsym, hacc⟩
    have hsyms : 8 * k / 5 = 8 * (k / 5) + 8 * (k % 5) / 5 := by omega
    exact ⟨⟨by omega, hacc, by omega⟩, k % 5, by omega, by omega, by omega⟩

theorem encAfter_zero_of_cleared {s : State} (h : s.EncCleared) : s.EncAfter 0 := by
  obtain ⟨hacc, hbits, hsym⟩ := h
  simp [State.EncAfter, hacc, hbits, hsym]

theorem pushFields_count (b : Octet) (s : State) :
    (pushFields b s).1.length = (s.ebits.toNat + 8) / 5 ∧ (pushFields b s).2 = (s.ebits.toNat + 8) % 5 :=
  takeFields_bits 5 (by decide) _ _

theorem commandEffect_encPush_ebits (b : Octet) (s : State) :
    (commandEffect (.encPush b) s).ebits.toNat = (s.ebits.toNat + 8) % 5 := by
  simp only [commandEffect, State.setEncoder_ebits, (pushFields_count b s).2, BitVec.toNat_ofNat]
  omega

theorem commandEffect_encPush_esym (b : Octet) (s : State) :
    (commandEffect (.encPush b) s).esym.toNat = (s.esym.toNat + (s.ebits.toNat + 8) / 5) % 8 := by
  simp [commandEffect, (pushFields_count b s).1]

/-- The accumulator keeps the bits left over and no others (R121). -/
theorem commandEffect_encPush_eacc (b : Octet) (s : State) :
    (commandEffect (.encPush b) s).eacc.toNat = (s.eacc.toNat * 256 + b.toNat) % 2 ^ ((s.ebits.toNat + 8) % 5) := by
  have hleft : 2 ^ ((s.ebits.toNat + 8) % 5) ≤ 2 ^ 12 := Nat.pow_le_pow_right (by decide) (by omega)
  have hlt := Nat.mod_lt (s.eacc.toNat * 256 + b.toNat) (Nat.two_pow_pos ((s.ebits.toNat + 8) % 5))
  simp only [commandEffect, State.setEncoder_eacc, (pushFields_count b s).2, Nat.one_shiftLeft,
    Nat.and_two_pow_sub_one_eq_mod, shiftLeft_or_eq 8 _ _ b.isLt, BitVec.toNat_ofNat]
  exact Nat.mod_eq_of_lt (hlt.trans_le hleft)

theorem encAfter_encPush {s : State} {k : Nat} (b : Octet) (h : s.EncAfter k) :
    (commandEffect (.encPush b) s).EncAfter (k + 1) := by
  obtain ⟨hbits, hsym, -⟩ := h
  have hsyms : 8 * (k + 1) / 5 = 8 * k / 5 + (8 * k % 5 + 8) / 5 := by omega
  refine ⟨?_, ?_, ?_⟩
  · rw [commandEffect_encPush_ebits]; omega
  · rw [commandEffect_encPush_esym, hsym, hbits, hsyms]; omega
  · rw [commandEffect_encPush_eacc, commandEffect_encPush_ebits]
    exact Nat.mod_lt _ (Nat.two_pow_pos _)

/-- Every command keeps R31: a push counts one byte more, the other encoder commands clear the encoder, and no other
command touches it. -/
theorem commandEffect_encAfter (i : Instr) {s : State} (h : ∃ k, s.EncAfter k) :
    ∃ k, (commandEffect i s).EncAfter k := by
  cases hi : isEncoderCommand i with
  | false =>
    obtain ⟨_, _, _, _, _, heff, -⟩ := commandEffect_decoder hi s
    rw [heff]; exact h
  | true =>
    cases i with
    | encPush b => obtain ⟨k, hk⟩ := h; exact ⟨k + 1, encAfter_encPush b hk⟩
    | encFin _ | encClr _ => exact ⟨0, encAfter_zero_of_cleared ⟨rfl, rfl, rfl⟩⟩
    | decPush _ | decFin _ | decClr _ | cls _ | decCfg _ => cases hi

/-! ### The decoder -/

theorem decInv_of_cleared {s : State} (h : s.DecCleared) : s.DecInv := by
  obtain ⟨hacc, hbits, hcnt, hpois⟩ := h
  simp [State.DecInv, hacc, hbits, hcnt, hpois]

/-- Counting a character does not wrap the 4-bit counter (R33). -/
theorem countChar_dcnt_toNat {s : State} (h : s.dcnt.toNat ≤ 7) : s.countChar.dcnt.toNat = s.dcnt.toNat + 1 := by
  simp only [State.countChar_dcnt]
  bv_omega

/-- Shifting a symbol in does not wrap the 6-bit counter (R33). -/
theorem shiftIn_dbits_toNat {s : State} (v : BitVec 6) (h : s.dbits.toNat ≤ 35) :
    (s.shiftIn v).dbits.toNat = s.dbits.toNat + 5 := by
  simp only [State.shiftIn_dbits]
  bv_omega

/-- A number of `n` bits with a symbol behind it is a number of `n + 5` bits. -/
theorem mul_add_symbol_lt {n a v : Nat} (ha : a < 2 ^ n) (hv : v < 32) : a * 32 + v < 2 ^ (n + 5) := by
  rw [Nat.pow_add]; omega

/-- Shifting a symbol in loses no bit of the 40-bit accumulator (R33). -/
theorem shiftIn_dacc_toNat {s : State} {v : BitVec 6} (hacc : s.dacc.toNat < 2 ^ s.dbits.toNat)
    (hbits : s.dbits.toNat ≤ 35) (hv : v.toNat < 32) :
    (s.shiftIn v).dacc.toNat = s.dacc.toNat * 32 + v.toNat := by
  have hfit : s.dacc.toNat * 32 + v.toNat < 2 ^ 40 :=
    (mul_add_symbol_lt hacc hv).trans_le (Nat.pow_le_pow_right (by decide) (by omega))
  rw [State.shiftIn_dacc, shiftLeft_or_eq 5 _ _ hv, BitVec.toNat_ofNat]
  exact Nat.mod_eq_of_lt hfit

/-- The counter after a character: one more if it is accepted, the same if it is skipped (R171). -/
theorem acceptChar_dcnt_toNat {s : State} (c : Octet) (h : s.dcnt.toNat ≤ 7) :
    (acceptChar c s).dcnt.toNat =
      if validChar c = true ∨ s.strict = true then s.dcnt.toNat + 1 else s.dcnt.toNat := by
  rcases acceptChar_cases c s with ⟨hv, -, e⟩ | ⟨hv, -, e⟩ | ⟨-, hs, e⟩ | ⟨hv, hs, e⟩
  · rw [e, if_pos (.inl hv)]; exact countChar_dcnt_toNat h
  · rw [e, if_pos (.inl hv)]; exact countChar_dcnt_toNat h
  · rw [e, if_pos (.inr hs)]; exact countChar_dcnt_toNat h
  · rw [e, if_neg (by simp [hv, hs])]

/-- A valid symbol of a group that is not poisoned is shifted in and counted (R171, R172). -/
theorem acceptChar_of_valid {c : Octet} {s : State} (hv : validChar c = true) (hp : s.dpois = false) :
    acceptChar c s = (s.shiftIn (classify c)).countChar := by
  simp [acceptChar, hv, hp]

/-- A group that is not full after a character meets R32. -/
theorem acceptChar_decInv {s : State} (c : Octet) (h : s.DecInv) (hopen : (acceptChar c s).dcnt.toNat ≠ 8) :
    (acceptChar c s).DecInv := by
  obtain ⟨hcnt, ⟨hmod, hbits⟩, hacc, hclean, hpois, hstrict⟩ := h
  rcases acceptChar_cases c s with ⟨hv, hp, e⟩ | ⟨-, hp, e⟩ | ⟨-, hs, e⟩ | ⟨-, -, e⟩ <;> rw [e] at hopen ⊢
  · have hv := (validChar_iff c).1 hv
    have hcnt' : (s.shiftIn (classify c)).countChar.dcnt.toNat = s.dcnt.toNat + 1 := countChar_dcnt_toNat hcnt
    have hbits' : (s.shiftIn (classify c)).countChar.dbits.toNat = s.dbits.toNat + 5 :=
      shiftIn_dbits_toNat (classify c) hbits
    have hacc' : (s.shiftIn (classify c)).countChar.dacc.toNat = s.dacc.toNat * 32 + (classify c).toNat :=
      shiftIn_dacc_toNat hacc hbits hv
    have := hclean hp
    unfold State.DecInv
    rw [hcnt', hbits', hacc']
    exact ⟨by omega, by omega, mul_add_symbol_lt hacc hv, fun _ => by omega, by simp [hp], fun _ => hp⟩
  · have hcnt' := countChar_dcnt_toNat hcnt
    exact ⟨by omega, ⟨hmod, hbits⟩, hacc, by simp [hp], fun _ => ⟨by omega, (hpois hp).2⟩, hstrict⟩
  · have hcnt' : s.poison.countChar.dcnt.toNat = s.dcnt.toNat + 1 := countChar_dcnt_toNat hcnt
    unfold State.DecInv
    rw [hcnt']
    exact ⟨by omega, by simp, by simp, by simp, by simp, by simp [hs]⟩
  · exact ⟨hcnt, ⟨hmod, hbits⟩, hacc, hclean, hpois, hstrict⟩

/-- Every command keeps R32: a character that fills the group closes it, the other commands of the decoder clear it or
leave it, and no encoder command touches it. -/
theorem commandEffect_decInv (i : Instr) {s : State} (h : s.DecInv) : (commandEffect i s).DecInv := by
  cases hi : isEncoderCommand i with
  | true =>
    obtain ⟨_, _, _, heff⟩ := commandEffect_encoder hi s
    rw [heff]; exact h
  | false =>
    cases i with
    | decPush c =>
      rw [commandEffect]
      split
      · exact decInv_of_cleared ⟨rfl, rfl, rfl, rfl⟩
      · next hopen => exact acceptChar_decInv c h hopen
    | decFin _ | decClr _ | decCfg _ => exact decInv_of_cleared ⟨rfl, rfl, rfl, rfl⟩
    | cls _ => exact h
    | encPush _ | encFin _ | encClr _ => cases hi

end Sys2Proof.Machine

/-! The responses of the commands are legal (spec/30_encoding.md R84, R88). -/

namespace Sys2Proof.Machine

/-- A burst of at most 7 octets makes a legal response: the lanes above it are zero, and it reports no error. -/
theorem legal_ofBurst {out : List Octet} (h : out.length ≤ 7) : (Response.ofBurst out).Legal := by
  have hn := ofBurst_n_toNat out (by omega)
  refine ⟨by omega, fun i hi hle => ?_, by simp [Response.cause], by simp [Response.cause]⟩
  rw [lane_ofBurst out i hi, dif_neg (by omega)]

theorem legal_zero : Response.zero.Legal := legal_ofBurst (by simp)

/-- An error raised on the all-zero response carries no octet, and the two errors are never raised together (R88). -/
theorem legal_raiseError_zero (e : CoreError) : (raiseError e Response.zero).Legal := by
  cases e <;> decide

theorem legal_classified (c : Octet) : (Response.classified c).Legal := legal_zero

theorem legal_closeResponse (s : State) : (closeResponse s).Legal := by
  rcases closeResponse_cases s with ⟨-, h⟩ | ⟨-, h⟩ <;> rw [h]
  · exact legal_raiseError_zero _
  · exact legal_ofBurst (by rw [groupBytes_length]; omega)

/-- The tail of an encode call: the final symbol, if bits are held, and `=` up to a multiple of 8 symbols. In the states
of R31 bits are held only where the last group has begun, so at most 7 octets are left (R122, R127). -/
theorem encFin_burst_length_le {s : State} {k : Nat} (h : s.EncAfter k) :
    (finalSymbol s.eacc s.ebits ++
      padding (s.esym + BitVec.ofNat 3 (finalSymbol s.eacc s.ebits).length)).length ≤ 7 := by
  obtain ⟨hbits, hsym, -⟩ := h
  simp only [List.length_append, padding_eq, List.length_replicate, finalSymbol_length, BitVec.toNat_add,
    BitVec.toNat_ofNat]
  split <;> omega

theorem commandResponse_legal (i : Instr) {s : State} (h : ∃ k, s.EncAfter k) : (commandResponse i s).Legal := by
  cases i with
  | encPush b => exact legal_ofBurst (by rw [List.length_map, (pushFields_count b s).1]; omega)
  | encFin _ => obtain ⟨k, hk⟩ := h; exact legal_ofBurst (encFin_burst_length_le hk)
  | decPush c =>
    rw [commandResponse]
    split
    · exact legal_closeResponse _
    · exact legal_zero
  | decFin _ => exact legal_closeResponse s
  | cls c => exact legal_classified c
  | encClr _ | decClr _ | decCfg _ => exact legal_zero

end Sys2Proof.Machine

/-! Reset and the invariants of the whole state (spec/10_state.md R31, R32, R34, R35). -/

namespace Sys2Proof.Machine

/-- What `State.Sound` says of a core that has been reset. -/
abbrev State.Good (s : State) : Prop :=
  s.EncInv ∧ s.EncPhase ∧ s.DecInv ∧ ∀ r ∈ s.rsps, r.Legal

theorem good_iff {s : State} : s.Good ↔ (∃ k, s.EncAfter k) ∧ s.DecInv ∧ ∀ r ∈ s.rsps, r.Legal := by
  rw [State.Good, ← and_assoc, encInv_and_encPhase_iff]

theorem good_of_cleared {s : State} (he : s.EncCleared) (hd : s.DecCleared) (hr : s.rsps = []) : s.Good :=
  good_iff.2 ⟨⟨0, encAfter_zero_of_cleared he⟩, decInv_of_cleared hd, by simp [hr]⟩

theorem good_applyReset (s : State) : (applyReset s).Good :=
  good_of_cleared ⟨rfl, rfl, rfl⟩ ⟨rfl, rfl, rfl, rfl⟩ rfl

theorem good_takeResponse {s : State} (h : s.Good) : (takeResponse s).Good := by
  obtain ⟨henc, hphase, hdec, hr⟩ := h
  exact ⟨henc, hphase, hdec, fun r hmem => hr r (List.mem_of_mem_tail hmem)⟩

theorem good_respond {s : State} {r : Response} (h : s.Good) (hr : r.Legal) : (s.respond r).Good := by
  obtain ⟨henc, hphase, hdec, hrs⟩ := h
  refine ⟨henc, hphase, hdec, fun q hq => ?_⟩
  rcases List.mem_append.1 hq with hq | hq
  · exact hrs q hq
  · rw [List.mem_singleton.1 hq]; exact hr

theorem good_exec {i : Instr} {s t : State} (h : s.Good) (hexec : exec i s = .next t) : t.Good := by
  obtain ⟨henc, hdec, hr⟩ := good_iff.1 h
  have heffect : (commandEffect i s).Good :=
    good_iff.2 ⟨commandEffect_encAfter i henc, commandEffect_decInv i hdec, by rwa [(commandEffect_host i s).2]⟩
  rw [exec_eq_next_iff.1 hexec]
  exact good_respond heffect (commandResponse_legal i henc)

/-- Settles O7: the five things a step can do (`step_cases`) each keep what `Sound` says; for a command that is R31 and
R32 of its effect and R84, R88 of its response. -/
theorem stepKeepsSound : Obligations.StepKeepsSound := by
  intro s t hs hstep
  rcases step_cases s t hstep with ⟨-, rfl⟩ | ⟨rest, -, rfl⟩ | ⟨rest, -, hreset, rfl⟩ |
    ⟨w, i, rest, -, hreset, -, hexec⟩ | ⟨w, r, rest, -, hreset, -, rfl⟩
  · exact hs
  · exact fun _ => good_applyReset _
  · exact fun _ => good_takeResponse (s := s.advance rest) (hs hreset)
  · exact fun _ => good_exec (s := s.advance rest) (hs hreset) hexec
  · exact fun _ => good_respond (s := s.advance rest) (hs hreset) (legal_raiseError_zero _)

/-- Settles O5. -/
theorem resetClearsEveryElement : Obligations.ResetClearsEveryElement :=
  ⟨rfl, rfl, rfl, rfl, rfl, rfl, rfl, rfl⟩

/-- Settles O6: both units are cleared and no response waits. -/
theorem resetStateIsSound : Obligations.ResetStateIsSound := by
  obtain ⟨hacc, hbits, hsym, hdacc, hdbits, hdcnt, hdpois, -⟩ := resetClearsEveryElement
  exact fun _ => good_of_cleared ⟨hacc, hbits, hsym⟩ ⟨hdacc, hdbits, hdcnt, hdpois⟩ rfl

/-- Before the first reset a word is not even decoded (R35). -/
theorem respondTo_issue_of_not_reset {s : State} (w : Command) (h : s.resetSeen = false) :
    respondTo (.issue w) s = .unreset := by
  simp [respondTo, h]

theorem step_of_nextAction_unreset {s : State} (h : nextAction s = .unreset) : step s = .refused .beforeReset := by
  simp only [step, h]

/-- Settles O11: the word at the head of the host's events meets a core that has not been reset. -/
theorem commandBeforeResetIsRefused : Obligations.CommandBeforeResetIsRefused := by
  intro s w rest hreset hin
  have haction : nextAction s = .unreset :=
    (nextAction_of_inputs_cons hin).trans (respondTo_issue_of_not_reset w hreset)
  exact step_of_nextAction_unreset haction

end Sys2Proof.Machine

/-! The register widths and the encoder's counters (spec/10_state.md R31, R33). -/

namespace Sys2Proof.Machine

/-- The largest value inside `ENC.PUSH` fits the register: at most 4 held bits and 8 more (R33). -/
theorem encPush_value_fits {s : State} (b : Octet) (h : s.EncInv) :
    s.eacc.toNat * 256 + b.toNat < 2 ^ 12 ∧ s.ebits.toNat + 8 ≤ 12 := by
  obtain ⟨hbits, hacc, -⟩ := h
  have hlt : s.eacc.toNat < 2 ^ 4 := hacc.trans_le (Nat.pow_le_pow_right (by decide) hbits)
  omega

/-- Settles O42: held bits and counters are below their bounds of R31 and R32, so one byte or one symbol more fits. -/
theorem noRegisterWriteTruncates : Obligations.NoRegisterWriteTruncates := by
  refine ⟨fun b s h => encPush_value_fits b h, ?_, ?_⟩
  · rintro c s ⟨-, ⟨-, hbits⟩, hacc, -⟩ hv hp
    rw [acceptChar_of_valid ((validChar_iff c).2 hv) hp]
    exact ⟨shiftIn_dacc_toNat hacc hbits hv, shiftIn_dbits_toNat (classify c) hbits, by omega⟩
  · rintro c s ⟨hcnt, -⟩
    simp only [acceptChar_dcnt_toNat c hcnt, validChar_iff]
    exact ⟨by split <;> omega, fun h => if_pos h⟩

/-- Pushing bytes one after another counts each of them (R31). -/
theorem runCommands_encPush_encAfter (bytes : List Octet) {s : State} {k : Nat} (h : s.EncAfter k) :
    ∃ t, runCommands (bytes.map .encPush) s = .next t ∧ t.EncAfter (k + bytes.length) := by
  induction bytes generalizing s k with
  | nil => exact ⟨s, rfl, h⟩
  | cons b rest ih =>
    rw [List.map_cons, runCommands_cons, List.length_cons, show k + (rest.length + 1) = k + 1 + rest.length by omega]
    exact ih (encAfter_encPush b h)

/-- Settles O44, by induction on the bytes, from a count of 0. -/
theorem encoderCountersFollowTheBytes : Obligations.EncoderCountersFollowTheBytes := by
  intro bytes s hclear
  simpa only [Nat.zero_add] using runCommands_encPush_encAfter bytes (encAfter_zero_of_cleared hclear)

end Sys2Proof.Machine

/-! Which command touches what, and what it depends on (spec/10_state.md R36, R37). -/

namespace Sys2Proof.Machine

/-- Settles O36: the effect of an encoder command is a write of the encoder's registers. -/
theorem encoderCommandsFrame : Obligations.EncoderCommandsFrame := by
  intro i s t hi hexec
  obtain ⟨a, b, e, heff⟩ := commandEffect_encoder hi s
  rw [exec_eq_next_iff.1 hexec, heff]
  exact ⟨⟨rfl, rfl, rfl, rfl⟩, rfl, ⟨rfl, rfl⟩, _, rfl⟩

/-- Settles O37: the effect of any other command is a write of the decoder's registers and `strict`, and `CLS` has
none. -/
theorem decoderCommandsFrame : Obligations.DecoderCommandsFrame := by
  intro i s t hi hexec
  obtain ⟨a, b, n, p, m, heff, hm⟩ := commandEffect_decoder hi s
  rw [exec_eq_next_iff.1 hexec]
  refine ⟨?_, ?_, ?_, ?_, ?_⟩
  · rw [heff]; exact ⟨rfl, rfl, rfl⟩
  · exact (commandEffect_host i s).1
  · exact ⟨_, congrArg (· ++ _) (commandEffect_host i s).2⟩
  · intro hcfg; rw [heff]; exact hm hcfg
  · rintro ⟨c, rfl⟩; exact ⟨rfl, rfl, rfl, rfl⟩

/-- An encoder command reads the encoder's registers only (R36). -/
theorem command_congr_encoder {i : Instr} {s u : State} (hi : isEncoderCommand i = true) (h : s.SameEncoder u) :
    commandResponse i u = commandResponse i s ∧ (commandEffect i s).SameEncoder (commandEffect i u) := by
  obtain ⟨hacc, hbits, hsym⟩ := h
  cases i with
  | encPush b => simp [State.SameEncoder, commandResponse, commandEffect, pushFields, hacc, hbits, hsym]
  | encFin _ => simp [State.SameEncoder, commandResponse, commandEffect, hacc, hbits, hsym]
  | encClr _ => exact ⟨rfl, rfl, rfl, rfl⟩
  | decPush _ | decFin _ | decClr _ | cls _ | decCfg _ => cases hi

/-- The two states hold the same in all a decoder command reads: the group registers and the mode (R36). -/
abbrev State.SameDecoderAndMode (s u : State) : Prop := s.SameDecoder u ∧ u.strict = s.strict

theorem acceptChar_congr (c : Octet) {s u : State} (h : s.SameDecoderAndMode u) :
    (acceptChar c s).SameDecoderAndMode (acceptChar c u) := by
  obtain ⟨⟨hacc, hbits, hcnt, hpois⟩, hstrict⟩ := h
  unfold acceptChar
  rw [hpois, hstrict]
  split_ifs <;> simp [State.SameDecoderAndMode, State.SameDecoder, hacc, hbits, hcnt, hpois, hstrict]

theorem closeResponse_congr {s u : State} (h : s.SameDecoder u) : closeResponse u = closeResponse s := by
  obtain ⟨hacc, hbits, -, hpois⟩ := h
  simp only [closeResponse, hacc, hbits, hpois]

/-- A decoder command reads the group registers and the mode only (R36). -/
theorem command_congr_decoder {i : Instr} {s u : State} (hi : isEncoderCommand i = false)
    (h : s.SameDecoderAndMode u) :
    commandResponse i u = commandResponse i s ∧
      (commandEffect i s).SameDecoderAndMode (commandEffect i u) := by
  cases i with
  | decPush c =>
    have hc := acceptChar_congr c h
    have ⟨⟨_, _, hcnt, _⟩, hstrict⟩ := hc
    simp only [commandResponse, commandEffect, hcnt]
    split
    · exact ⟨closeResponse_congr hc.1, ⟨rfl, rfl, rfl, rfl⟩, hstrict⟩
    · exact ⟨rfl, hc⟩
  | decFin _ => exact ⟨closeResponse_congr h.1, ⟨rfl, rfl, rfl, rfl⟩, h.2⟩
  | decClr _ => exact ⟨rfl, ⟨rfl, rfl, rfl, rfl⟩, h.2⟩
  | cls _ => exact ⟨rfl, h⟩
  | decCfg _ => exact ⟨rfl, ⟨rfl, rfl, rfl, rfl⟩, rfl⟩
  | encPush _ | encFin _ | encClr _ => cases hi

/-- Settles O38: each unit's commands read and write that unit only, and `CLS` reads no state at all. -/
theorem responseDependsOnTheOwnUnitOnly : Obligations.ResponseDependsOnTheOwnUnitOnly := by
  intro i s u henc hdec
  have hresp : commandResponse i u = commandResponse i s := by
    cases hi : isEncoderCommand i with
    | true => exact (command_congr_encoder hi (henc hi)).1
    | false =>
      by_cases hcls : ∃ c, i = .cls c
      · obtain ⟨c, rfl⟩ := hcls; rfl
      · exact (command_congr_decoder hi (hdec hi (not_exists.1 hcls))).1
  refine ⟨_, _, commandResponse i s, exec_eq i s, exec_eq i u, ?_, ?_, ?_, ?_⟩
  · exact congrArg (· ++ _) (commandEffect_host i s).2
  · rw [hresp]; exact congrArg (· ++ _) (commandEffect_host i u).2
  · exact fun hi => (command_congr_encoder hi (henc hi)).2
  · exact fun hi hcls => (command_congr_decoder hi (hdec hi hcls)).2

end Sys2Proof.Machine

/-! The port's runs (spec/20_memory.md R65, R67): the decoder reads back the words the host presents, and what the host
does afterwards is no part of a command's meaning. -/

namespace Sys2Proof

/-- The mask that all rows of the map share keeps `op` and drops `arg` (R80, R85). -/
theorem and_opMask (w : Command) : w &&& 0xF00#12 = commandWord (opField w) 0#8 := by
  have hmask : ∀ i, i < 12 → (0xF00#12).getLsbD i = decide (8 ≤ i) := by decide
  apply BitVec.eq_of_getLsbD_eq
  intro i hi
  rw [BitVec.getLsbD_and, hmask i hi]
  by_cases h : 8 ≤ i
  · have hop : 8 + (i - 8) = i := by omega
    have h4 : i - 8 < 4 := by omega
    simp [commandWord, opField, h, hi, hop, h4, Nat.not_lt.2 h]
  · simp [commandWord, h, Nat.lt_of_not_le h]

/-- A row of the map covers the words with the row's opcode number, whatever else they hold (R81, R85). -/
theorem covers_eq_opcode {r : OpcodeRow} (hr : r ∈ opcodeMap) (w : Command) :
    r.covers w = (opField w == r.mnemonic.opcode) := by
  obtain ⟨hmask, hpattern⟩ : r.mask = 0xF00#12 ∧ r.pattern = commandWord r.mnemonic.opcode 0#8 := by
    revert r; decide
  rw [OpcodeRow.covers, hmask, hpattern, and_opMask, Bool.eq_iff_iff, beq_iff_eq, beq_iff_eq]
  exact ⟨fun h => by simpa only [opField_commandWord] using congrArg opField h, fun h => by rw [h]⟩

/-- Every mnemonic has a row of its own, and no row before it has its opcode number (R85). -/
theorem find?_opcode (m : Mnemonic) :
    ∃ r, opcodeMap.find? (fun r => m.opcode == r.mnemonic.opcode) = some r ∧ r.mnemonic = m := by
  cases m <;> exact ⟨_, rfl, rfl⟩

theorem decode_of_opField {w : Command} {m : Mnemonic} (h : opField w = m.opcode) :
    decode w = .ok (m.withArg (argField w)) := by
  obtain ⟨r, hfind, rfl⟩ := find?_opcode m
  have hcovers : opcodeMap.find? (·.covers w) = some r := by
    rw [← hfind]
    exact List.find?_congr fun r hr => by rw [covers_eq_opcode hr, h]
  rw [decode, hcovers]

theorem withArg_mnemonic_arg (i : Instr) : i.mnemonic.withArg i.arg = i := by
  cases i <;> rfl

/-- The decoder reads back the command an assembler wrote, its ignored operand bits included (R80, R81). -/
theorem decode_encode (i : Instr) : decode (encode i) = .ok i := by
  have hop : opField (encode i) = i.mnemonic.opcode := opField_commandWord _ _
  have harg : argField (encode i) = i.arg := argField_commandWord _ _
  rw [decode_of_opField hop, harg, withArg_mnemonic_arg]

end Sys2Proof

namespace Sys2Proof.Machine

theorem exec_advance_of_next {i : Instr} {s t : State} (l : List HostEvent) (h : exec i s = .next t) :
    exec i (s.advance l) = .next (t.advance l) := by
  rw [exec_advance, h]

theorem run_succ_of_step {s t : State} (k : Nat) (h : step s = .next t) :
    Host.Core.run core (k + 1) s = Host.Core.run core k t := by
  simp only [Host.Core.run, core, h]

theorem runCommands_cons_of_next {i : Instr} {s t : State} (is : List Instr) (h : exec i s = .next t) :
    runCommands (i :: is) s = runCommands is t := by
  simp only [runCommands, h]

/-- After reset the word of a command, once presented, runs that command; the events after it are still to come. -/
theorem step_of_presented {i : Instr} {s t : State} (l : List HostEvent) (hreset : s.resetSeen = true)
    (h : exec i s = .next t) : step (s.advance (.issue (encode i) :: l)) = .next (t.advance l) := by
  have hstep : step (s.advance (.issue (encode i) :: l)) = exec i (s.advance l) :=
    stepRunsTheDecodedCommand _ _ i l hreset rfl (decode_encode i)
  rw [hstep, exec_advance_of_next l h]

/-- Settles O14, by induction on the commands: each step runs the first of them and leaves the others presented. -/
theorem presentedCommandsRunInOrder : Obligations.PresentedCommandsRunInOrder := by
  intro is
  induction is with
  | nil => exact fun _ _ _ => rfl
  | cons i is ih =>
    intro s rest hreset
    have hexec := exec_eq i s
    obtain ⟨⟨-, hseen⟩, -⟩ := commandEffect_host i s
    have hreset' : ((commandEffect i s).respond (commandResponse i s)).resetSeen = true := hseen.trans hreset
    exact (run_succ_of_step _ (step_of_presented _ hreset hexec)).trans <|
      (ih _ rest hreset').trans (runCommands_cons_of_next is (exec_advance_of_next rest hexec)).symm

end Sys2Proof.Machine

/-! The two units do not meet (spec/20_memory.md R68): what a command writes is the same from any two states that agree
on its own unit, so neither a command of the other unit nor a waiting response shows in it. -/

namespace Sys2Proof.Machine

/-- From two states with the same encoder an encoder command writes the same registers (R36, R37). -/
theorem commandEffect_encoder_congr {i : Instr} {s u : State} (hi : isEncoderCommand i = true)
    (h : s.SameEncoder u) :
    ∃ a b e, commandEffect i s = s.setEncoder a b e ∧ commandEffect i u = u.setEncoder a b e := by
  obtain ⟨a, b, e, hs⟩ := commandEffect_encoder hi s
  obtain ⟨a', b', e', hu⟩ := commandEffect_encoder hi u
  have hsame := (command_congr_encoder hi h).2
  rw [hs, hu] at hsame
  obtain ⟨rfl, rfl, rfl⟩ : a' = a ∧ b' = b ∧ e' = e := hsame
  exact ⟨_, _, _, hs, hu⟩

/-- From two states with the same decoder and mode any other command writes the same registers and mode (R36, R37). -/
theorem commandEffect_decoder_congr {i : Instr} {s u : State} (hi : isEncoderCommand i = false)
    (h : s.SameDecoderAndMode u) :
    ∃ a b n p m, commandEffect i s = { s with dacc := a, dbits := b, dcnt := n, dpois := p, strict := m } ∧
      commandEffect i u = { u with dacc := a, dbits := b, dcnt := n, dpois := p, strict := m } := by
  obtain ⟨a, b, n, p, m, hs, -⟩ := commandEffect_decoder hi s
  obtain ⟨a', b', n', p', m', hu, -⟩ := commandEffect_decoder hi u
  have hsame := (command_congr_decoder hi h).2
  rw [hs, hu] at hsame
  obtain ⟨⟨rfl, rfl, rfl, rfl⟩, rfl⟩ : (a' = a ∧ b' = b ∧ n' = n ∧ p' = p) ∧ m' = m := hsame
  exact ⟨_, _, _, _, _, hs, hu⟩

/-- An encoder command leaves all that the other commands read (R37). -/
theorem sameDecoderAndMode_commandEffect {i : Instr} (hi : isEncoderCommand i = true) (s : State) :
    s.SameDecoderAndMode (commandEffect i s) := by
  obtain ⟨_, _, _, h⟩ := commandEffect_encoder hi s
  rw [h]; exact ⟨⟨rfl, rfl, rfl, rfl⟩, rfl⟩

/-- A command of the decoder, or `CLS`, leaves all that the encoder commands read (R37). -/
theorem sameEncoder_commandEffect {i : Instr} (hi : isEncoderCommand i = false) (s : State) :
    s.SameEncoder (commandEffect i s) := by
  obtain ⟨_, _, _, _, _, h, -⟩ := commandEffect_decoder hi s
  rw [h]; exact ⟨rfl, rfl, rfl⟩

/-- A waiting response shows neither in what a command answers nor in what it writes (R36). -/
theorem command_respond (i : Instr) (s : State) (r : Response) :
    commandResponse i (s.respond r) = commandResponse i s ∧
      commandEffect i (s.respond r) = (commandEffect i s).respond r := by
  cases hi : isEncoderCommand i with
  | true =>
    have h : s.SameEncoder (s.respond r) := ⟨rfl, rfl, rfl⟩
    obtain ⟨_, _, _, hs, hu⟩ := commandEffect_encoder_congr hi h
    exact ⟨(command_congr_encoder hi h).1, by rw [hs, hu]; rfl⟩
  | false =>
    have h : s.SameDecoderAndMode (s.respond r) := ⟨⟨rfl, rfl, rfl, rfl⟩, rfl⟩
    obtain ⟨_, _, _, _, _, hs, hu⟩ := commandEffect_decoder_congr hi h
    exact ⟨(command_congr_decoder hi h).1, by rw [hs, hu]; rfl⟩

/-- The effects of an encoder command and of any other command commute: they write different registers, and neither
reads what the other writes. -/
theorem commandEffect_comm {a b : Instr} (ha : isEncoderCommand a = true) (hb : isEncoderCommand b = false)
    (s : State) : commandEffect a (commandEffect b s) = commandEffect b (commandEffect a s) := by
  obtain ⟨_, _, _, has, hab⟩ := commandEffect_encoder_congr ha (sameEncoder_commandEffect hb s)
  obtain ⟨_, _, _, _, _, hbs, hba⟩ := commandEffect_decoder_congr hb (sameDecoderAndMode_commandEffect ha s)
  rw [hab, hba, has, hbs]; rfl

/-- Two commands one after the other leave the effect of both and the two responses, in their order. -/
theorem runCommands_pair (i j : Instr) (s : State) :
    runCommands [i, j] s =
      .next (((commandEffect j (commandEffect i s)).respond (commandResponse i s)).respond
        (commandResponse j (commandEffect i s))) := by
  obtain ⟨hresponse, heffect⟩ := command_respond j (commandEffect i s) (commandResponse i s)
  rw [runCommands_cons, runCommands_cons, hresponse, heffect, runCommands]

/-- Two commands leave the earlier responses as they were (R67). -/
theorem commandEffect_commandEffect_rsps (i j : Instr) (s : State) :
    (commandEffect j (commandEffect i s)).rsps = s.rsps :=
  (commandEffect_host j _).2.trans (commandEffect_host i s).2

/-- Settles O39: the effects commute, and neither command's response depends on what the other has written. -/
theorem unitsCommute : Obligations.UnitsCommute := by
  intro a b s ha hb
  have hra : commandResponse a (commandEffect b s) = commandResponse a s :=
    (command_congr_encoder ha (sameEncoder_commandEffect hb s)).1
  have hrb : commandResponse b (commandEffect a s) = commandResponse b s :=
    (command_congr_decoder hb (sameDecoderAndMode_commandEffect ha s)).1
  refine ⟨_, _, commandResponse a s, commandResponse b s, runCommands_pair a b s, runCommands_pair b a s,
    ?_, ?_, ?_⟩
  · simp [State.respond, commandEffect_commandEffect_rsps, hrb]
  · simp [State.respond, commandEffect_commandEffect_rsps, hra]
  · rw [commandEffect_comm ha hb]; rfl

end Sys2Proof.Machine


/-! The command word (spec/30_encoding.md R80 to R86, R100): its two fields make it up, and `op` alone selects what it
decodes to. -/

namespace Sys2Proof

theorem opField_toNat (w : Command) : (opField w).toNat = w.toNat / 256 := by
  have hw := w.isLt
  rw [opField, BitVec.extractLsb'_toNat, Nat.shiftRight_eq_div_pow]
  omega

theorem argField_eq (w : Command) : argField w = BitVec.ofNat 8 (w.toNat % 256) := by
  apply BitVec.eq_of_toNat_eq
  rw [argField, BitVec.extractLsb'_toNat, BitVec.toNat_ofNat, Nat.shiftRight_zero, Nat.mod_mod]

/-- The two fields hold every bit of the word (R80). -/
theorem commandWord_opField_argField (w : Command) : commandWord (opField w) (argField w) = w := by
  apply BitVec.eq_of_toNat_eq
  rw [commandWord_toNat, opField_toNat, argField_eq, BitVec.toNat_ofNat]
  omega

/-- The word an assembler writes for a mnemonic and an octet (R100). -/
theorem encode_withArg (m : Mnemonic) (a : Octet) : encode (m.withArg a) = commandWord m.opcode a := by
  cases m <;> rfl

/-- A word whose opcode no mnemonic has is covered by no row of the map (R86). -/
theorem decode_of_reserved {w : Command} (h : ∀ m : Mnemonic, opField w ≠ m.opcode) :
    decode w = .error (.reservedOpcode (opField w)) := by
  have hnone : opcodeMap.find? (·.covers w) = none := by
    rw [List.find?_eq_none]
    intro r hr
    rw [covers_eq_opcode hr, beq_iff_eq]
    exact h r.mnemonic
  rw [decode, hnone]

/-- What the decoder can answer: the command of the mnemonic that has the word's opcode, or a rejection where no
mnemonic has it (R81, R86). -/
theorem decode_cases (w : Command) :
    (∃ m : Mnemonic, opField w = m.opcode ∧ decode w = .ok (m.withArg (argField w))) ∨
    ((∀ m : Mnemonic, opField w ≠ m.opcode) ∧ decode w = .error (.reservedOpcode (opField w))) := by
  by_cases h : ∃ m : Mnemonic, opField w = m.opcode
  · obtain ⟨m, hm⟩ := h
    exact .inl ⟨m, hm, decode_of_opField hm⟩
  · have hreserved := not_exists.1 h
    exact .inr ⟨hreserved, decode_of_reserved hreserved⟩

/-- A word that decodes is the word of its command: no bit of it is dropped (R80, R85). -/
theorem encode_of_decode_ok {w : Command} {i : Instr} (h : decode w = .ok i) : encode i = w := by
  rcases decode_cases w with ⟨m, hop, hdec⟩ | ⟨-, hdec⟩
  · obtain rfl : m.withArg (argField w) = i := Except.ok.inj (hdec.symm.trans h)
    rw [encode_withArg, ← hop, commandWord_opField_argField]
  · cases hdec.symm.trans h

/-- Settles O3: the decoder reads back both fields of a command's word, and the fields make up the word. -/
theorem decodeEncodeAgree : Obligations.DecodeEncodeAgree :=
  ⟨decode_encode, fun _ _ => encode_of_decode_ok⟩

/-- The lookup of R81 by the number of the opcode. -/
theorem decode_of_op {w : Command} (m : Mnemonic) (h : w.toNat / 256 = m.opcode.toNat) :
    decode w = .ok (m.withArg (BitVec.ofNat 8 (w.toNat % 256))) := by
  have hop : opField w = m.opcode := BitVec.eq_of_toNat_eq ((opField_toNat w).trans h)
  rw [decode_of_opField hop, argField_eq]

/-- The opcode numbers outside the map (R86). -/
theorem opcode_not_reserved (m : Mnemonic) : ¬ (m.opcode.toNat = 0 ∨ m.opcode.toNat = 4 ∨ 10 ≤ m.opcode.toNat) := by
  cases m <;> decide

theorem decode_of_reserved_op {w : Command}
    (h : w.toNat / 256 = 0 ∨ w.toNat / 256 = 4 ∨ 10 ≤ w.toNat / 256) :
    decode w = .error (.reservedOpcode (BitVec.ofNat 4 (w.toNat / 256))) := by
  have hreserved : ∀ m : Mnemonic, opField w ≠ m.opcode := fun m hm =>
    opcode_not_reserved m (by rwa [← hm, opField_toNat])
  rw [decode_of_reserved hreserved, ← opField_toNat, BitVec.ofNat_toNat, BitVec.setWidth_eq]

/-- Settles O2: one clause for each mnemonic's opcode, and one for the reserved ones. -/
theorem opAloneSelectsTheCommand : Obligations.OpAloneSelectsTheCommand := fun _ =>
  ⟨decode_of_op .encPush, decode_of_op .encFin, decode_of_op .encClr, decode_of_op .decPush, decode_of_op .decFin,
    decode_of_op .decClr, decode_of_op .cls, decode_of_op .decCfg, decode_of_reserved_op⟩

/-- Settles O1: eight of the words are what the encoder makes of their commands, and three have a reserved opcode. -/
theorem specWordsDecode : Obligations.SpecWordsDecode :=
  ⟨decode_encode (.encPush 0x66#8), decode_encode (.encFin 0xFF#8), decode_encode (.encClr 0x00#8),
    decode_encode (.decPush 0x43#8), decode_encode (.decFin 0x00#8), decode_encode (.decClr 0x7F#8),
    decode_encode (.cls 0x61#8), decode_encode (.decCfg 0x01#8), decode_of_reserved_op (by decide),
    decode_of_reserved_op (by decide), decode_of_reserved_op (by decide)⟩

/-! ### Listings -/

/-- The octet of an operand: its numeral, or its character's code; a numeral above 255 has none (R100). -/
theorem AsmOperand.octet_eq_some_iff {o : AsmOperand} {a : Octet} :
    o.octet = some a ↔
      o.wellFormed = true ∧ (∀ n, o = .numeral n → a.toNat = n) ∧ (∀ c, o = .char c → a = c) := by
  cases o with
  | numeral n =>
    have hoctet : n ≤ 255 → (BitVec.ofNat 8 n = a ↔ a.toNat = n) := by bv_omega
    by_cases hn : n ≤ 255 <;> simp [AsmOperand.octet, AsmOperand.wellFormed, hn, hoctet]
  | char c => simp [AsmOperand.octet, AsmOperand.wellFormed, eq_comm]

theorem AsmOperand.exists_octet_of_wellFormed {o : AsmOperand} (h : o.wellFormed = true) :
    ∃ a, o.octet = some a := by
  cases o with
  | numeral n => exact ⟨BitVec.ofNat 8 n, if_pos (by simpa [AsmOperand.wellFormed] using h)⟩
  | char c => exact ⟨c, rfl⟩

/-- A line with an operand assembles if its mnemonic takes one, to the command with the operand's octet (R100). -/
theorem AsmLine.assemble_some_iff {m : Mnemonic} {o : AsmOperand} {i : Instr} :
    AsmLine.assemble ⟨m, some o⟩ = some i ↔ m.takesOperand = true ∧ ∃ a, o.octet = some a ∧ m.withArg a = i := by
  cases h : m.takesOperand <;> simp [AsmLine.assemble, h]

/-- A line with no operand assembles if its mnemonic takes none, with `arg = 0` (R100). -/
theorem AsmLine.assemble_none_iff {m : Mnemonic} {i : Instr} :
    AsmLine.assemble ⟨m, none⟩ = some i ↔ m.takesOperand = false ∧ m.withArg 0x00#8 = i := by
  cases h : m.takesOperand <;> simp [AsmLine.assemble, h]

/-- A line assembles exactly when it has an operand just where its mnemonic takes one, and a legal one (R100). -/
theorem AsmLine.wellFormed_iff_exists_assemble (l : AsmLine) :
    l.wellFormed = true ↔ ∃ i, l.assemble = some i := by
  obtain ⟨m, _ | o⟩ := l
  · simp [AsmLine.wellFormed, AsmLine.assemble_none_iff]
  · simp only [AsmLine.wellFormed, AsmLine.assemble_some_iff, Bool.and_eq_true]
    constructor
    · rintro ⟨hm, ho⟩
      obtain ⟨a, ha⟩ := AsmOperand.exists_octet_of_wellFormed ho
      exact ⟨m.withArg a, hm, a, ha, rfl⟩
    · rintro ⟨_, hm, a, ha, -⟩
      exact ⟨hm, (AsmOperand.octet_eq_some_iff.1 ha).1⟩

/-- Settles O4: a line that assembles is its mnemonic with an octet, the operand's or 0, and the word of such a command
holds the opcode number above that octet. -/
theorem listingsAssemble : Obligations.ListingsAssemble := by
  intro l
  refine ⟨l.wellFormed_iff_exists_assemble, fun i hi => ?_⟩
  have hword (m : Mnemonic) (a : Octet) :
      (encode (m.withArg a)).toNat = m.opcode.toNat * 256 + a.toNat := by
    rw [encode_withArg, commandWord_toNat]
  obtain ⟨m, _ | o⟩ := l
  · obtain ⟨-, rfl⟩ := AsmLine.assemble_none_iff.1 hi
    exact ⟨0#8, hword m _, nofun, nofun, fun _ => rfl⟩
  · obtain ⟨-, a, ha, rfl⟩ := AsmLine.assemble_some_iff.1 hi
    obtain ⟨-, hnumeral, hchar⟩ := AsmOperand.octet_eq_some_iff.1 ha
    exact ⟨a, hword m a, fun n hn => hnumeral n (Option.some.inj hn), fun c hc => hchar c (Option.some.inj hc), nofun⟩

end Sys2Proof

/-! One step at the port (spec/30_encoding.md R83, R86, R103; spec/60_exceptions.md R216): an issued word of either
kind, and a read. -/

namespace Sys2Proof.Machine

/-- After reset a word that does not decode ends in the state in which its illegal opcode is reported (R86). -/
theorem respondTo_issue_of_decode_error {s : State} {w : Command} {r : Reject}
    (hreset : s.resetSeen = true) (hdec : decode w = .error r) :
    respondTo (.issue w) s = .become (illegalCommand s) := by
  simp only [respondTo, hreset, hdec, if_true]

theorem respondTo_read_of_reset {s : State} (hreset : s.resetSeen = true) :
    respondTo .read s = .become (takeResponse s) := by
  simp only [respondTo, hreset, if_true]

theorem step_of_nextAction_become {s t : State} (h : nextAction s = .become t) : step s = .next t := by
  simp only [step, h]

theorem step_of_decode_error {s : State} {w : Command} {r : Reject} {rest : List HostEvent}
    (hreset : s.resetSeen = true) (hin : s.inputs = .issue w :: rest) (hdec : decode w = .error r) :
    step s = .next (illegalCommand (s.advance rest)) :=
  step_of_nextAction_become <|
    (nextAction_of_inputs_cons hin).trans (respondTo_issue_of_decode_error (s := s.advance rest) hreset hdec)

/-- Settles O9: a reserved opcode does not decode, and the step's state is the one of `illegalCommand`. -/
theorem reservedOpcodeOnlyReportsIll : Obligations.ReservedOpcodeOnlyReportsIll := by
  intro s w rest hreset hin hop
  exact step_of_decode_error hreset hin (decode_of_reserved_op hop)

theorem step_of_read {s : State} {rest : List HostEvent} (hreset : s.resetSeen = true)
    (hin : s.inputs = .read :: rest) : step s = .next (takeResponse (s.advance rest)) :=
  step_of_nextAction_become <|
    (nextAction_of_inputs_cons hin).trans (respondTo_read_of_reset (s := s.advance rest) hreset)

theorem takeResponse_eq {s : State} {rs : List Response} (h : s.rsps.tail = rs) :
    takeResponse s = { s with rsps := rs } := by
  rw [takeResponse, h]

/-- With no event the core is idle (R5). -/
theorem step_of_inputs_nil {s : State} (h : s.inputs = []) : step s = .next s := by
  simp only [step, nextAction, h]

/-- Settles O12: a read leaves the tail of the waiting responses, which is empty where none waits. -/
theorem readTakesTheOldestResponse : Obligations.ReadTakesTheOldestResponse := by
  refine ⟨?_, ?_, fun s => step_of_inputs_nil⟩
  · intro s r rs rest hreset hin hrsps
    have htail : (s.advance rest).rsps.tail = rs := congrArg List.tail hrsps
    rw [step_of_read hreset hin, takeResponse_eq htail]; rfl
  · intro s rest hreset hin hrsps
    have htail : (s.advance rest).rsps.tail = s.rsps := by rw [State.advance_rsps, hrsps, List.tail_nil]
    rw [step_of_read hreset hin, takeResponse_eq htail]; rfl

/-- A command's response goes behind the earlier ones, and the host's side stays (R67). -/
theorem exec_responds (i : Instr) (s : State) :
    ∃ t, exec i s = .next t ∧ t.rsps = s.rsps ++ [commandResponse i s] ∧ s.SameHost t := by
  obtain ⟨hhost, hrsps⟩ := commandEffect_host i s
  exact ⟨_, exec_eq i s, congrArg (· ++ _) hrsps, hhost⟩

/-- Settles O13: a word that decodes is answered by its command, any other by the report of its illegal opcode. -/
theorem everyWordGetsOneResponse : Obligations.EveryWordGetsOneResponse := by
  intro s w rest hreset hin
  rcases decode_cases w with ⟨m, -, hdec⟩ | ⟨-, hdec⟩
  · have hstep := stepRunsTheDecodedCommand s w _ rest hreset hin hdec
    obtain ⟨t, hexec, hrsps, hinputs, hseen⟩ := exec_responds (m.withArg (argField w)) (s.advance rest)
    exact ⟨t, _, hstep.trans hexec, hrsps, hinputs, hseen.trans hreset⟩
  · exact ⟨_, _, step_of_decode_error hreset hin hdec, rfl, rfl, hreset⟩

end Sys2Proof.Machine

/-! The sizes of the bursts, command by command (spec/30_encoding.md R84). -/

namespace Sys2Proof.Machine

/-- The tail of an encode call by the number `k` of its bytes, which counts modulo 5 (R127). -/
theorem encFin_burst_length_mem {s : State} {k : Nat} (h : s.EncAfter k) :
    (finalSymbol s.eacc s.ebits ++
      padding (s.esym + BitVec.ofNat 3 (finalSymbol s.eacc s.ebits).length)).length ∈ [0, 2, 4, 5, 7] := by
  obtain ⟨hbits, hsym, -⟩ := h
  simp only [List.length_append, padding_eq, List.length_replicate, finalSymbol_length, BitVec.toNat_add,
    BitVec.toNat_ofNat, List.mem_cons, List.not_mem_nil, or_false]
  split <;> omega

/-- `Close` emits the whole bytes of the held bits, and none where the group is poisoned (R173). -/
theorem closeResponse_n_toNat (s : State) :
    (closeResponse s).n.toNat = if s.dpois then 0 else s.dbits.toNat / 8 := by
  rcases closeResponse_cases s with ⟨hp, h⟩ | ⟨hp, h⟩ <;> rw [h, hp]
  · rfl
  · have hlen := groupBytes_length s.dacc s.dbits
    exact (ofBurst_n_toNat _ (by omega)).trans hlen

/-- A group that a character fills holds 8 symbols of 5 bits, unless it is poisoned (R172, R174). -/
theorem acceptChar_full_dbits {s : State} {c : Octet} (h : s.DecInv) (hfull : (acceptChar c s).dcnt.toNat = 8)
    (hclean : (acceptChar c s).dpois = false) : (acceptChar c s).dbits.toNat = 40 := by
  obtain ⟨hcnt, ⟨-, hbits⟩, -, hheld, -⟩ := h
  rcases acceptChar_cases c s with ⟨-, hp, e⟩ | ⟨-, hp, e⟩ | ⟨-, -, e⟩ | ⟨-, -, e⟩ <;> rw [e] at hfull hclean ⊢
  · have hcnt' : (s.shiftIn (classify c)).countChar.dcnt.toNat = s.dcnt.toNat + 1 := countChar_dcnt_toNat hcnt
    have hbits' : (s.shiftIn (classify c)).countChar.dbits.toNat = s.dbits.toNat + 5 :=
      shiftIn_dbits_toNat (classify c) hbits
    have := hheld hp
    omega
  · cases hp.symm.trans hclean
  · cases hclean
  · omega

theorem encPush_n_toNat (b : Octet) (s : State) :
    (commandResponse (.encPush b) s).n.toNat = (s.ebits.toNat + 8) / 5 := by
  have hlen : ((pushFields b s).1.map symbolChar).length = (s.ebits.toNat + 8) / 5 := by
    rw [List.length_map, (pushFields_count b s).1]
  exact (ofBurst_n_toNat _ (by omega)).trans hlen

theorem decPush_n_toNat {s : State} (c : Octet) (h : s.DecInv) :
    (commandResponse (.decPush c) s).n.toNat = 0 ∨ (commandResponse (.decPush c) s).n.toNat = 5 := by
  rw [commandResponse]
  split
  · next hfull =>
    rw [closeResponse_n_toNat]
    cases hp : (acceptChar c s).dpois with
    | true => exact .inl rfl
    | false => rw [acceptChar_full_dbits h hfull hp]; exact .inr rfl
  · exact .inl rfl

/-- Settles O41: each command's response has the size that the held bits of its unit give it. -/
theorem burstSizesByCommand : Obligations.BurstSizesByCommand := by
  intro i s hinv hphase hdec
  obtain ⟨t, hexec, hrsps, -⟩ := exec_responds i s
  refine ⟨t, commandResponse i s, hexec, hrsps, ?_⟩
  cases i with
  | encPush b =>
    obtain ⟨hbits, -⟩ := hinv
    simp only [encPush_n_toNat]; omega
  | encFin _ =>
    obtain ⟨k, hk⟩ := encInv_and_encPhase_iff.1 ⟨hinv, hphase⟩
    have hle := encFin_burst_length_le hk
    simp only [commandResponse, ofBurst_n_toNat _ (hle.trans (by decide))]
    exact encFin_burst_length_mem hk
  | decPush c => exact decPush_n_toNat c hdec
  | decFin _ =>
    obtain ⟨-, ⟨-, hbits⟩, -⟩ := hdec
    simp only [commandResponse, closeResponse_n_toNat]
    split <;> omega
  | encClr _ | decClr _ | cls _ | decCfg _ => rfl

end Sys2Proof.Machine

/-! The packed record, the alphabet and the ignored operand bits (spec/30_encoding.md R82, R83, R88, R96). -/

namespace Sys2Proof.Machine

theorem extractLsb'_pack_data (r : Response) {start len : Nat} (h : start + len ≤ 64) :
    r.pack.extractLsb' start len = r.data.extractLsb' start len := by
  unfold Response.pack
  rw [BitVec.extractLsb'_append_eq_of_add_le (by omega), BitVec.extractLsb'_append_eq_of_add_le (by omega),
    BitVec.extractLsb'_append_eq_of_add_le (by omega), BitVec.extractLsb'_append_eq_of_add_le (by omega),
    BitVec.extractLsb'_append_eq_of_add_le (by omega)]

/-- `n` stands on top of the lanes, below `val` and the flags (R83). -/
theorem extractLsb'_pack_n (r : Response) : r.pack.extractLsb' 64 4 = r.n := by
  rw [Response.pack, BitVec.extractLsb'_append_eq_of_add_le (by decide),
    BitVec.extractLsb'_append_eq_of_add_le (by decide), BitVec.extractLsb'_append_eq_of_add_le (by decide),
    BitVec.extractLsb'_append_eq_of_add_le (by decide), BitVec.extractLsb'_append_eq_left]

/-- `val` stands on top of `n`, below the flags (R83). -/
theorem extractLsb'_pack_val (r : Response) : r.pack.extractLsb' 68 6 = r.val := by
  rw [Response.pack, BitVec.extractLsb'_append_eq_of_add_le (by decide),
    BitVec.extractLsb'_append_eq_of_add_le (by decide), BitVec.extractLsb'_append_eq_of_add_le (by decide),
    BitVec.extractLsb'_append_eq_left]

/-- The three flags stand on top of the record: `ok`, then `err`, then `ill` (R83). -/
theorem getLsbD_pack_flags (r : Response) :
    r.pack.getLsbD 74 = r.ok ∧ r.pack.getLsbD 75 = r.err ∧ r.pack.getLsbD 76 = r.ill := by
  refine ⟨?_, ?_, ?_⟩
  · rw [Response.pack, BitVec.getLsbD_append, BitVec.getLsbD_append, BitVec.getLsbD_append, BitVec.getLsbD_ofBool]; rfl
  · rw [Response.pack, BitVec.getLsbD_append, BitVec.getLsbD_append, BitVec.getLsbD_ofBool]; rfl
  · rw [Response.pack, BitVec.getLsbD_append, BitVec.getLsbD_ofBool]; rfl

theorem getLsbD_cause (r : Response) : r.cause.getLsbD 0 = r.err ∧ r.cause.getLsbD 1 = r.ill := by
  rw [Response.cause]
  cases r.ill <;> cases r.err <;> decide

/-- The cause code is the two topmost bits of the record (R88). -/
theorem extractLsb'_pack_cause (r : Response) : r.pack.extractLsb' 75 2 = r.cause := by
  obtain ⟨-, herr, hill⟩ := getLsbD_pack_flags r
  obtain ⟨hlow, hhigh⟩ := getLsbD_cause r
  apply BitVec.eq_of_getLsbD_eq
  intro i hi
  rw [BitVec.getLsbD_extractLsb', decide_eq_true hi, Bool.true_and]
  obtain rfl | rfl : i = 0 ∨ i = 1 := by omega
  · exact herr.trans hlow.symm
  · exact hill.trans hhigh.symm

/-- Settles O15: each field is read from the parts of the record above and below it. -/
theorem recordLayout : Obligations.RecordLayout := by
  intro r
  obtain ⟨hok, herr, hill⟩ := getLsbD_pack_flags r
  have hdata : r.pack.extractLsb' 0 64 = r.data :=
    (extractLsb'_pack_data r (Nat.le_refl 64)).trans BitVec.extractLsb'_eq_self
  exact ⟨hdata, extractLsb'_pack_n r, extractLsb'_pack_val r, hok, herr, hill, extractLsb'_pack_cause r,
    fun i hi => extractLsb'_pack_data r (by omega)⟩

/-- The operand enters `DEC.CFG` by its lowest bit only (R82, R177). -/
theorem modeBit_eq (a : Octet) : modeBit a = decide (a.toNat % 2 = 1) := by
  rw [modeBit, BitVec.getLsbD, Nat.testBit_zero]

/-- Settles O26: the four commands do not read their operand, and `DEC.CFG` reads its lowest bit. -/
theorem ignoredOperandBitsHaveNoEffect : Obligations.IgnoredOperandBitsHaveNoEffect := by
  intro a b s
  refine ⟨rfl, rfl, rfl, rfl, fun h => ?_⟩
  simp only [exec, execDecCfg, modeBit_eq, h]

/-- Settles O16: the table has 32 entries, each compared with its run. -/
theorem alphabetTable : Obligations.AlphabetTable := by
  unfold Obligations.AlphabetTable
  decide

end Sys2Proof.Machine

/-! Running commands one after another (spec/20_memory.md R67): no command stops, and since a waiting response shows in
no command, a run is its effects and its responses, each by itself. -/

namespace Sys2Proof.Machine

/-- The state a sequence of commands leaves, its responses apart; `runCommands_eq` ties it to `runCommands`. -/
def runEffect : List Instr → State → State
  | [], s => s
  | i :: is, s => runEffect is (commandEffect i s)

/-- The responses of a sequence of commands, in order; `runCommands_eq` ties them to `runCommands`. -/
def runResponses : List Instr → State → List Response
  | [], _ => []
  | i :: is, s => commandResponse i s :: runResponses is (commandEffect i s)

/-- A waiting response shows neither in the effect of a run nor in its responses (R36). -/
theorem run_respond (is : List Instr) (s : State) (r : Response) :
    runEffect is (s.respond r) = (runEffect is s).respond r ∧ runResponses is (s.respond r) = runResponses is s := by
  induction is generalizing s with
  | nil => exact ⟨rfl, rfl⟩
  | cons i is ih =>
    obtain ⟨hresponse, heffect⟩ := command_respond i s r
    obtain ⟨ihEffect, ihResponses⟩ := ih (commandEffect i s)
    simp only [runEffect, runResponses, hresponse, heffect, ihEffect, ihResponses, and_self]

theorem runEffect_rsps (is : List Instr) (s : State) : (runEffect is s).rsps = s.rsps := by
  induction is generalizing s with
  | nil => rfl
  | cons i is ih => exact (ih _).trans (commandEffect_host i s).2

/-- Every sequence of commands completes, with one response for each of them behind the earlier ones. -/
theorem runCommands_eq (is : List Instr) (s : State) :
    runCommands is s = .next { runEffect is s with rsps := s.rsps ++ runResponses is s } := by
  induction is generalizing s with
  | nil => simp [runCommands, runEffect, runResponses]
  | cons i is ih =>
    obtain ⟨heffect, hresponses⟩ := run_respond is (commandEffect i s) (commandResponse i s)
    rw [runCommands_cons, ih, heffect, hresponses, State.respond_rsps, (commandEffect_host i s).2]
    simp [State.respond, runEffect, runResponses]

theorem runResponses_length (is : List Instr) (s : State) : (runResponses is s).length = is.length := by
  induction is generalizing s with
  | nil => rfl
  | cons i is ih => simp only [runResponses, List.length_cons, ih]

theorem runEffect_append (is js : List Instr) (s : State) :
    runEffect (is ++ js) s = runEffect js (runEffect is s) := by
  induction is generalizing s with
  | nil => rfl
  | cons i is ih => exact ih _

theorem runResponses_append (is js : List Instr) (s : State) :
    runResponses (is ++ js) s = runResponses is s ++ runResponses js (runEffect is s) := by
  induction is generalizing s with
  | nil => rfl
  | cons i is ih => exact congrArg (commandResponse i s :: ·) (ih _)

/-- The first responses of a run are those of the run's first commands. -/
theorem runResponses_append_take {is : List Instr} {k : Nat} (js : List Instr) (s : State) (hk : is.length = k) :
    (runResponses (is ++ js) s).take k = runResponses is s := by
  rw [runResponses_append, List.take_left' ((runResponses_length is s).trans hk)]

theorem burst_length (r : Response) : r.burst.length = r.n.toNat := by
  simp [Response.burst]

end Sys2Proof.Machine

/-! The symbols of a string of bits (spec/20_memory.md R55, R56; spec/40_encoder.md R121, R124). -/

namespace Sys2Proof.Machine

/-- The characters of the whole 5-bit fields of a string of bits, cut from its start (R56, R121). -/
def fieldSymbols (bits : List Bool) : List Octet :=
  (List.range (bits.length / 5)).map fun j => symbolChar (bitField 5 bits j)

/-- The bits of a string behind its whole 5-bit fields: what the encoder holds (R121). -/
def leftBits (bits : List Bool) : List Bool := bits.drop (5 * (bits.length / 5))

theorem fieldSymbols_length (bits : List Bool) : (fieldSymbols bits).length = bits.length / 5 := by
  simp [fieldSymbols]

theorem leftBits_length (bits : List Bool) : (leftBits bits).length = bits.length % 5 := by
  rw [leftBits, List.length_drop]; omega

/-- The fields, read from the number the bits spell (R121). -/
theorem fieldSymbols_eq_map_bitsValue (bits : List Bool) :
    fieldSymbols bits = (List.range (bits.length / 5)).map fun j =>
      symbolChar (bitsValue bits / 2 ^ (bits.length - 5 * (j + 1)) % 32) := by
  refine List.map_congr_left fun j hj => ?_
  rw [List.mem_range] at hj
  rw [bitField_eq 5 bits j (by omega)]; rfl

theorem bitsValue_leftBits (bits : List Bool) : bitsValue (leftBits bits) = bitsValue bits % 2 ^ (bits.length % 5) := by
  rw [leftBits, bitsValue_drop]
  congr 2; omega

theorem bitField_append_left {k : Nat} {x : List Bool} {j : Nat} (y : List Bool) (h : k * (j + 1) ≤ x.length) :
    bitField k (x ++ y) j = bitField k x j := by
  rw [Nat.mul_succ] at h
  rw [bitField, bitField, List.drop_append_of_le_length (by omega),
    List.take_append_of_le_length (by rw [List.length_drop]; omega)]

/-- Behind a string of `a` whole fields, field `a + j` is field `j` of the rest. -/
theorem bitField_append_right {k : Nat} {x : List Bool} {a : Nat} (y : List Bool) (j : Nat) (h : x.length = k * a) :
    bitField k (x ++ y) (a + j) = bitField k y j := by
  rw [bitField, bitField, Nat.mul_add, ← h, List.drop_append, List.drop_of_length_le (by omega), List.nil_append,
    Nat.add_sub_cancel_left]

/-- Cutting a string between two of its fields cuts its symbols. -/
theorem fieldSymbols_append {x : List Bool} (y : List Bool) (h : x.length % 5 = 0) :
    fieldSymbols (x ++ y) = fieldSymbols x ++ fieldSymbols y := by
  obtain ⟨a, ha⟩ := Nat.dvd_of_mod_eq_zero h
  have hlen : (x ++ y).length / 5 = x.length / 5 + y.length / 5 := by rw [List.length_append]; omega
  have hx : x.length / 5 = a := by omega
  rw [fieldSymbols, hlen, List.range_add, List.map_append, List.map_map]
  congr 1
  · refine List.map_congr_left fun j hj => ?_
    rw [List.mem_range] at hj
    rw [bitField_append_left y (by omega)]
  · refine List.map_congr_left fun j _ => ?_
    rw [Function.comp_apply, hx, bitField_append_right y j ha]

/-- The bits left behind whole fields are not changed by them. -/
theorem leftBits_append_of_whole {x : List Bool} (y : List Bool) (h : x.length % 5 = 0) :
    leftBits (x ++ y) = leftBits y := by
  have hcut : 5 * ((x ++ y).length / 5) = x.length + 5 * (y.length / 5) := by rw [List.length_append]; omega
  rw [leftBits, hcut, List.drop_append, List.drop_of_length_le (by omega), List.nil_append, Nat.add_sub_cancel_left,
    leftBits]

/-- A string is its whole fields and the bits left behind them. -/
theorem exists_eq_append_leftBits (x : List Bool) : ∃ w, w.length % 5 = 0 ∧ w ++ leftBits x = x :=
  ⟨x.take (5 * (x.length / 5)), by rw [List.length_take]; omega, List.take_append_drop _ x⟩

/-- Bits that fill no field have no symbol. -/
theorem fieldSymbols_leftBits (x : List Bool) : fieldSymbols (leftBits x) = [] := by
  rw [fieldSymbols, leftBits_length, Nat.div_eq_of_lt (Nat.mod_lt _ (by decide))]; rfl

/-- Bits appended to a string leave its whole fields and come behind what is left of it. -/
theorem fieldSymbols_append_leftBits (x y : List Bool) :
    fieldSymbols (x ++ y) = fieldSymbols x ++ fieldSymbols (leftBits x ++ y) := by
  obtain ⟨w, hw, hx⟩ := exists_eq_append_leftBits x
  have hsymbols : fieldSymbols x = fieldSymbols w := by
    rw [← hx, fieldSymbols_append _ hw, fieldSymbols_leftBits, List.append_nil]
  rw [hsymbols, ← fieldSymbols_append _ hw, ← List.append_assoc, hx]

theorem leftBits_append (x y : List Bool) : leftBits (x ++ y) = leftBits (leftBits x ++ y) := by
  obtain ⟨w, hw, hx⟩ := exists_eq_append_leftBits x
  rw [← leftBits_append_of_whole (leftBits x ++ y) hw, ← List.append_assoc, hx]

theorem byteBits_length (bytes : List Octet) : (byteBits bytes).length = 8 * bytes.length := by
  induction bytes with
  | nil => rfl
  | cons b rest ih =>
    rw [byteBits, List.flatMap_cons, List.length_append, bitString_length, ← byteBits, ih, List.length_cons]; omega

theorem byteBits_append (b₁ b₂ : List Octet) : byteBits (b₁ ++ b₂) = byteBits b₁ ++ byteBits b₂ := by
  simp only [byteBits, List.flatMap_append]

end Sys2Proof.Machine

/-! The encoder's commands, one at a time (spec/40_encoder.md R121 to R123, R127, R129, R131). -/

namespace Sys2Proof.Machine

/-- Taking a byte in behind the held bits, as arithmetic (R121). -/
theorem shiftLeft_or_byte (acc : Nat) (b : Octet) : acc <<< Config.byteBits ||| b.toNat = acc * 256 + b.toNat :=
  shiftLeft_or_eq 8 acc _ b.isLt

/-- The word of a command as a number (R80, R85). -/
theorem encode_withArg_toNat (m : Mnemonic) (a : Octet) {n : Nat} (h : m.opcode.toNat * 256 = n) :
    (encode (m.withArg a)).toNat = n + a.toNat := by
  rw [encode_withArg, commandWord_toNat, h]

/-- What the loop takes from the held bits with the byte behind them (R121). -/
theorem pushFields_fst (b : Octet) (s : State) :
    (pushFields b s).1 = (List.range ((s.ebits.toNat + 8) / 5)).map fun j =>
      (s.eacc.toNat * 256 + b.toNat) / 2 ^ (s.ebits.toNat + 8 - 5 * (j + 1)) % 32 := by
  apply List.ext_getElem
  · rw [(pushFields_count b s).1, List.length_map, List.length_range]
  · intro j hj _
    rw [List.getElem_map, List.getElem_range, ← shiftLeft_or_byte]
    exact takeFields_get 5 _ _ _ j hj

theorem encPush_burst (b : Octet) (s : State) :
    (commandResponse (.encPush b) s).burst = (pushFields b s).1.map symbolChar := by
  refine burst_ofBurst _ ?_
  rw [List.length_map, (pushFields_count b s).1]; omega

/-- The registers `ENC.PUSH` writes (R121). -/
theorem commandEffect_encPush (b : Octet) (s : State) :
    commandEffect (.encPush b) s = s.setEncoder
      (BitVec.ofNat 12 ((s.eacc.toNat * 256 + b.toNat) % 2 ^ ((s.ebits.toNat + 8) % 5)))
      (BitVec.ofNat 4 ((s.ebits.toNat + 8) % 5))
      (BitVec.ofNat 3 ((s.esym.toNat + (s.ebits.toNat + 8) / 5) % 8)) := by
  have hsym : s.esym + BitVec.ofNat 3 ((s.ebits.toNat + 8) / 5) =
      BitVec.ofNat 3 ((s.esym.toNat + (s.ebits.toNat + 8) / 5) % 8) := by
    apply BitVec.eq_of_toNat_eq; simp
  simp only [commandEffect, (pushFields_count b s).1, (pushFields_count b s).2, Nat.one_shiftLeft,
    Nat.and_two_pow_sub_one_eq_mod, shiftLeft_or_byte, hsym]

/-- Settles O21: the loop's fields are the burst, and the registers keep what the loop leaves. -/
theorem encPushEmitsWholeSymbols : Obligations.EncPushEmitsWholeSymbols := by
  rintro b s ⟨hbits, -⟩
  have hleft : (s.ebits.toNat + 3) % 5 = (s.ebits.toNat + 8) % 5 := by omega
  refine ⟨encode_withArg_toNat .encPush b (by decide), commandResponse (.encPush b) s, ?_, ?_, ?_⟩
  · rw [exec_eq, commandEffect_encPush, hleft]; rfl
  · simp only [commandResponse, pushFields_fst, List.map_map]
    exact carries_ofBurst _ (by simp only [List.length_map, List.length_range]; omega)
  · rw [encPush_n_toNat]; split <;> omega

/-- The burst of `ENC.FIN` is the final symbol and the padding up to a multiple of 8 symbols (R122). -/
theorem commandResponse_encFin (arg : Octet) (s : State) :
    commandResponse (.encFin arg) s = Response.ofBurst (finalSymbol s.eacc s.ebits ++
      List.replicate ((8 - (s.esym.toNat + (finalSymbol s.eacc s.ebits).length) % 8) % 8) padChar) := by
  simp only [commandResponse, padding_eq, BitVec.toNat_add, BitVec.toNat_ofNat, Nat.reducePow, Nat.add_mod_mod]

theorem finBurst_length_le (eacc : BitVec 12) (ebits : BitVec 4) (n : Nat) :
    (finalSymbol eacc ebits ++ List.replicate ((8 - n % 8) % 8) padChar).length ≤ 8 := by
  rw [List.length_append, finalSymbol_length, List.length_replicate]
  split <;> omega

theorem encFin_burst (arg : Octet) (s : State) :
    (commandResponse (.encFin arg) s).burst = finalSymbol s.eacc s.ebits ++
      List.replicate ((8 - (s.esym.toNat + (finalSymbol s.eacc s.ebits).length) % 8) % 8) padChar := by
  rw [commandResponse_encFin, burst_ofBurst _ (finBurst_length_le _ _ _)]

/-- After `k` bytes `ENC.FIN` emits at most 7 octets, their number one of the five of R127. -/
theorem encFin_n_mem (arg : Octet) {s : State} {k : Nat} (h : s.EncAfter k) :
    (commandResponse (.encFin arg) s).n.toNat ∈ [0, 2, 4, 5, 7] := by
  have hle := encFin_burst_length_le h
  rw [commandResponse, ofBurst_n_toNat _ (hle.trans (by decide))]
  exact encFin_burst_length_mem h

/-- Settles O22: the final symbol and the padding are the burst, and the encoder is cleared. -/
theorem encFinFlushesAndPads : Obligations.EncFinFlushesAndPads := by
  intro arg s hinv
  refine ⟨encode_withArg_toNat .encFin arg (by decide), commandResponse (.encFin arg) s, exec_eq _ s, ?_,
    fun hphase => ?_⟩
  · rw [← finalSymbol_eq, commandResponse_encFin]
    exact carries_ofBurst _ (finBurst_length_le _ _ _)
  · obtain ⟨k, hk⟩ := encInv_and_encPhase_iff.1 ⟨hinv, hphase⟩
    exact encFin_n_mem arg hk

/-! ### The octets emitted -/

/-- The alphabet stands below 0x80, and `=` is not in it (R96, R97). -/
theorem alpha_lt_and_ne_padChar : ∀ v : SymVal, (alpha v).toNat < 0x80 ∧ alpha v ≠ padChar := by
  decide

/-- The final symbol, if there is one, is of the alphabet. -/
theorem exists_alpha_of_mem_finalSymbol {eacc : BitVec 12} {ebits : BitVec 4} {o : Octet}
    (h : o ∈ finalSymbol eacc ebits) : ∃ v, o = alpha v := by
  rw [finalSymbol_eq] at h
  split at h
  · cases h
  · exact ⟨_, List.mem_singleton.1 h⟩

/-- What the encoder emits: symbols from the loop, a final symbol, `=` (R121, R122). -/
theorem encoder_burst_mem {i : Instr} {s : State} {o : Octet} (hi : isEncoderCommand i = true)
    (ho : o ∈ (commandResponse i s).burst) : o = padChar ∨ ∃ v, o = alpha v := by
  cases i with
  | encPush b =>
    rw [encPush_burst] at ho
    obtain ⟨v, -, rfl⟩ := List.mem_map.1 ho
    exact .inr ⟨_, rfl⟩
  | encFin arg =>
    rw [encFin_burst] at ho
    rcases List.mem_append.1 ho with ho | ho
    · exact .inr (exists_alpha_of_mem_finalSymbol ho)
    · exact .inl (List.eq_of_mem_replicate ho)
  | encClr _ =>
    rw [commandResponse, burst_zero] at ho
    cases ho
  | decPush _ | decFin _ | decClr _ | cls _ | decCfg _ => cases hi

/-- An encoder command reports neither error (R129). -/
theorem encoder_reports_no_error {i : Instr} (hi : isEncoderCommand i = true) (s : State) :
    (commandResponse i s).err = false ∧ (commandResponse i s).ill = false := by
  cases i with
  | encPush _ | encFin _ | encClr _ => exact ⟨rfl, rfl⟩
  | decPush _ | decFin _ | decClr _ | cls _ | decCfg _ => cases hi

/-- Settles O25: no register value matters for which octets a command can emit, nor for its two error bits. -/
theorem encoderEmitsOnlyItsAlphabet : Obligations.EncoderEmitsOnlyItsAlphabet := by
  intro i s hi
  obtain ⟨t, hexec, hrsps, -⟩ := exec_responds i s
  obtain ⟨herr, hill⟩ := encoder_reports_no_error hi s
  refine ⟨t, _, hexec, hrsps, herr, hill, fun o ho => ?_⟩
  rcases encoder_burst_mem hi ho with rfl | ⟨v, rfl⟩
  · exact ⟨by decide, .inl rfl⟩
  · exact ⟨(alpha_lt_and_ne_padChar v).1, .inr ⟨v, rfl⟩⟩

/-- The `=` of the tail of a call are its padding. -/
theorem filter_padChar_finBurst (eacc : BitVec 12) (ebits : BitVec 4) (n : Nat) :
    (finalSymbol eacc ebits ++ List.replicate n padChar).filter (· == padChar) = List.replicate n padChar := by
  have hfinal : (finalSymbol eacc ebits).filter (· == padChar) = [] := by
    rw [List.filter_eq_nil_iff]
    rintro o ho
    obtain ⟨v, rfl⟩ := exists_alpha_of_mem_finalSymbol ho
    simpa using (alpha_lt_and_ne_padChar v).2
  rw [List.filter_append, hfinal, List.nil_append, List.filter_replicate_of_pos (by simp)]

/-- Settles O23: with the counters of `k` bytes, a final symbol is emitted just where `k` is no multiple of 5, and the
padding follows from the count of symbols. -/
theorem encFinTailByByteCount : Obligations.EncFinTailByByteCount := by
  rintro arg s k - hbits hsym
  obtain ⟨t, hexec, hrsps, -⟩ := exec_responds (.encFin arg) s
  refine ⟨t, _, hexec, hrsps, ?_⟩
  have hsyms : 8 * k / 5 = 8 * (k / 5) + 8 * (k % 5) / 5 := by omega
  have hheld : 8 * k % 5 = 8 * (k % 5) % 5 := by omega
  have hk : k % 5 < 5 := Nat.mod_lt _ (by decide)
  change _ ∧ (List.filter (· == padChar) _).length = _
  rw [encFin_burst, filter_padChar_finBurst, List.length_append, finalSymbol_length, List.length_replicate, hbits,
    hsym, hsyms, hheld, Nat.mul_add_mod_self_left]
  generalize k % 5 = r at hk ⊢
  revert r
  decide

/-! ### Nothing pending -/

theorem clearEncoder_of_cleared {s : State} (h : s.EncCleared) : s.clearEncoder = s := by
  obtain ⟨hacc, hbits, hsym⟩ := h
  rw [State.clearEncoder, ← hacc, ← hbits, ← hsym]; rfl

theorem clearDecoder_of_cleared {s : State} (h : s.DecCleared) : s.clearDecoder = s := by
  obtain ⟨hacc, hbits, hcnt, hpois⟩ := h
  rw [State.clearDecoder, ← hacc, ← hbits, ← hcnt, ← hpois]; rfl

theorem commandResponse_encFin_of_cleared (arg : Octet) {s : State} (h : s.EncCleared) :
    commandResponse (.encFin arg) s = Response.zero := by
  obtain ⟨hacc, hbits, hsym⟩ := h
  rw [commandResponse, hacc, hbits, hsym]; rfl

theorem closeResponse_of_cleared {s : State} (h : s.DecCleared) : closeResponse s = Response.zero := by
  obtain ⟨hacc, hbits, -, hpois⟩ := h
  rw [closeResponse, hacc, hbits, hpois]; rfl

/-- Settles O24: the command is `clearEncoder` and the all-zero response. -/
theorem encClrClearsTheEncoder : Obligations.EncClrClearsTheEncoder := fun arg s =>
  ⟨encode_withArg_toNat .encClr arg (by decide), exec_eq _ s⟩

/-- Settles O43: a cleared unit is not changed by clearing it, and has nothing to emit. -/
theorem finWithNothingPendingDoesNothing : Obligations.FinWithNothingPendingDoesNothing := by
  refine ⟨rfl, fun arg s => ⟨fun h => ?_, fun h => ?_⟩⟩
  · rw [exec_eq, commandEffect, clearEncoder_of_cleared h, commandResponse_encFin_of_cleared arg h]; rfl
  · rw [exec_eq, commandEffect, clearDecoder_of_cleared h, commandResponse, closeResponse_of_cleared h]; rfl

end Sys2Proof.Machine

/-! A whole encode call (spec/40_encoder.md R124 to R126): the encoder holds the last bits of what it has taken in, its
pushes emit the whole fields of that, and `ENC.FIN` the rest of `Enc`. -/

namespace Sys2Proof.Machine

/-! ### The held bits as a string -/

/-- The encoder holds this string of bits (R21, R22). -/
abbrev State.HoldsBits (s : State) (held : List Bool) : Prop :=
  s.ebits.toNat = held.length ∧ s.eacc.toNat = bitsValue held

theorem bitsValue_append_byte (held : List Bool) (b : Octet) :
    bitsValue (held ++ bitString 8 b.toNat) = bitsValue held * 256 + b.toNat := by
  rw [bitsValue_append, bitString_length, bitsValue_bitString, Nat.mod_eq_of_lt b.isLt]; rfl

/-- `ENC.PUSH b` emits the whole fields of the held bits with the byte behind them. -/
theorem encPush_burst_of_holdsBits {s : State} {held : List Bool} (b : Octet) (h : s.HoldsBits held) :
    (commandResponse (.encPush b) s).burst = fieldSymbols (held ++ bitString 8 b.toNat) := by
  obtain ⟨hbits, hacc⟩ := h
  rw [encPush_burst, pushFields_fst, fieldSymbols_eq_map_bitsValue, bitsValue_append_byte, List.length_append,
    bitString_length, List.map_map, hbits, hacc]
  rfl

/-- `ENC.PUSH b` keeps the bits behind those fields. -/
theorem holdsBits_encPush {s : State} {held : List Bool} (b : Octet) (h : s.HoldsBits held) :
    (commandEffect (.encPush b) s).HoldsBits (leftBits (held ++ bitString 8 b.toNat)) := by
  obtain ⟨hbits, hacc⟩ := h
  constructor
  · rw [commandEffect_encPush_ebits, leftBits_length, List.length_append, bitString_length, hbits]
  · rw [commandEffect_encPush_eacc, bitsValue_leftBits, bitsValue_append_byte, List.length_append, bitString_length,
      hbits, hacc]

theorem bitsValue_replicate_false (n : Nat) : bitsValue (List.replicate n false) = 0 := by
  induction n with
  | zero => rfl
  | succ n ih => rw [List.replicate_succ, bitsValue_cons, ih]; simp

/-- The final symbol is the field that the held bits begin, filled up with zeros (R122, R124). -/
theorem finalSymbol_of_holdsBits {s : State} {held : List Bool} (h : s.HoldsBits held) (hlt : held.length < 5) :
    finalSymbol s.eacc s.ebits = fieldSymbols (held ++ List.replicate ((5 - held.length) % 5) false) := by
  obtain ⟨hbits, hacc⟩ := h
  rw [finalSymbol_eq, hbits, hacc]
  split
  · next hnone => rw [List.length_eq_zero_iff.1 hnone]; rfl
  · next hsome =>
    have hfill : (5 - held.length) % 5 = 5 - held.length := Nat.mod_eq_of_lt (by omega)
    have hlen : (held ++ List.replicate (5 - held.length) false).length = 5 := by simp; omega
    rw [fieldSymbols_eq_map_bitsValue, hfill, hlen, bitsValue_append, bitsValue_replicate_false, List.length_replicate]
    simp [symbolChar]

/-! ### The pushes of a call -/

/-- The registers after these bytes: the counters of R31, and the bits behind the last whole field (R121). -/
abbrev State.AfterBytes (s : State) (bytes : List Octet) : Prop :=
  s.EncAfter bytes.length ∧ s.HoldsBits (leftBits (byteBits bytes))

theorem afterBytes_nil_of_cleared {s : State} (h : s.EncCleared) : s.AfterBytes [] := by
  refine ⟨encAfter_zero_of_cleared h, ?_⟩
  obtain ⟨hacc, hbits, -⟩ := h
  rw [State.HoldsBits, hacc, hbits]; exact ⟨rfl, rfl⟩

theorem byteBits_singleton (b : Octet) : byteBits [b] = bitString 8 b.toNat := by
  simp [byteBits]

theorem afterBytes_encPush {s : State} {bytes : List Octet} (b : Octet) (h : s.AfterBytes bytes) :
    (commandEffect (.encPush b) s).AfterBytes (bytes ++ [b]) := by
  obtain ⟨hcount, hheld⟩ := h
  refine ⟨by simpa using encAfter_encPush b hcount, ?_⟩
  rw [byteBits_append, byteBits_singleton, leftBits_append]
  exact holdsBits_encPush b hheld

/-- The pushes of a call emit the whole fields of the bytes, and the encoder holds the rest. -/
theorem encPushes_compute_fieldSymbols (bytes : List Octet) {s : State} (h : s.EncCleared) :
    (runEffect (bytes.map .encPush) s).AfterBytes bytes ∧
      (runResponses (bytes.map .encPush) s).flatMap Response.burst = fieldSymbols (byteBits bytes) := by
  induction bytes using List.reverseRecOn with
  | nil => exact ⟨afterBytes_nil_of_cleared h, rfl⟩
  | append_singleton bytes b ih =>
    obtain ⟨hafter, hbursts⟩ := ih
    rw [List.map_append, runEffect_append, runResponses_append, List.flatMap_append, hbursts]
    refine ⟨afterBytes_encPush b hafter, ?_⟩
    rw [byteBits_append, byteBits_singleton, fieldSymbols_append_leftBits,
      ← encPush_burst_of_holdsBits b hafter.2]
    exact congrArg _ (List.append_nil _)

/-! ### The whole call -/

/-- `Enc` as the fields of the bytes' bits, filled up with zeros, and `=` (R124). -/
theorem encText_eq (bytes : List Octet) :
    encText bytes =
      fieldSymbols (byteBits bytes ++ List.replicate (5 * symbolCount bytes.length - 8 * bytes.length) false) ++
        List.replicate ((8 - symbolCount bytes.length % 8) % 8) padChar := by
  have hcount : (byteBits bytes ++ List.replicate (5 * symbolCount bytes.length - 8 * bytes.length) false).length / 5 =
      symbolCount bytes.length := by
    rw [List.length_append, byteBits_length, List.length_replicate, symbolCount]; omega
  rw [encText, fieldSymbols, hcount]

/-- `ENC.FIN` after these bytes emits what `Enc` has behind their whole fields (R122, R124). -/
theorem encText_eq_append_encFin_burst {s : State} {bytes : List Octet} (arg : Octet) (h : s.AfterBytes bytes) :
    encText bytes = fieldSymbols (byteBits bytes) ++ (commandResponse (.encFin arg) s).burst := by
  obtain ⟨⟨hbits, hsym, -⟩, hheld⟩ := h
  have hleft : (leftBits (byteBits bytes)).length = 8 * bytes.length % 5 := by
    rw [leftBits_length, byteBits_length]
  have hfill : 5 * symbolCount bytes.length - 8 * bytes.length = (5 - (leftBits (byteBits bytes)).length) % 5 := by
    rw [hleft, symbolCount]; omega
  have hcount : symbolCount bytes.length = 8 * bytes.length / 5 + (finalSymbol s.eacc s.ebits).length := by
    rw [finalSymbol_length, hbits, symbolCount]
    split <;> omega
  have hpads : symbolCount bytes.length % 8 = (s.esym.toNat + (finalSymbol s.eacc s.ebits).length) % 8 := by
    rw [hcount, hsym, Nat.mod_add_mod]
  rw [encText_eq, fieldSymbols_append_leftBits, hfill, ← finalSymbol_of_holdsBits hheld (by omega), encFin_burst,
    hpads, List.append_assoc]

/-- The bursts of a whole call spell `Enc` (R125). -/
theorem encodeCall_bursts (bytes : List Octet) (arg : Octet) {s : State} (h : s.EncCleared) :
    (runResponses (bytes.map .encPush ++ [.encFin arg]) s).flatMap Response.burst = encText bytes := by
  obtain ⟨hafter, hbursts⟩ := encPushes_compute_fieldSymbols bytes h
  rw [runResponses_append, List.flatMap_append, hbursts, encText_eq_append_encFin_burst arg hafter]
  exact congrArg _ (List.append_nil _)

/-- The whole fields of the first `k` bytes are the first `floor(8k / 5)` symbols of `Enc` (R125). -/
theorem encText_take (bytes : List Octet) {k : Nat} (hk : k ≤ bytes.length) :
    (encText bytes).take (8 * k / 5) = fieldSymbols (byteBits (bytes.take k)) := by
  have hlen : (fieldSymbols (byteBits (bytes.take k))).length = 8 * k / 5 := by
    rw [fieldSymbols_length, byteBits_length, List.length_take, Nat.min_eq_left hk]
  have hbits : byteBits bytes = byteBits (bytes.take k) ++ byteBits (bytes.drop k) := by
    rw [← byteBits_append, List.take_append_drop]
  rw [encText_eq, hbits, List.append_assoc, fieldSymbols_append_leftBits, List.append_assoc, List.take_left' hlen]

/-- The first `k` pushes of a call have emitted the first `floor(8k / 5)` symbols of `Enc` (R125). -/
theorem encodeCall_bursts_take (bytes : List Octet) (arg : Octet) {s : State} {k : Nat} (h : s.EncCleared)
    (hk : k ≤ bytes.length) :
    ((runResponses (bytes.map .encPush ++ [.encFin arg]) s).take k).flatMap Response.burst =
      (encText bytes).take (8 * k / 5) := by
  have hcommands : bytes.map Instr.encPush ++ [.encFin arg] =
      (bytes.take k).map .encPush ++ ((bytes.drop k).map .encPush ++ [.encFin arg]) := by
    rw [← List.append_assoc, ← List.map_append, List.take_append_drop]
  rw [hcommands, runResponses_append_take _ s (by simp [hk]), (encPushes_compute_fieldSymbols _ h).2,
    encText_take bytes hk]

/-- Settles O45: by induction on the bytes pushed the encoder holds the bits behind their last whole field, so each push
emits the fields that its byte completes, and `ENC.FIN` the rest of `Enc`. -/
theorem encodeCallComputesEnc : Obligations.EncodeCallComputesEnc := by
  intro bytes arg s h
  refine ⟨_, runResponses (bytes.map .encPush ++ [.encFin arg]) s, runCommands_eq _ s, rfl, ?_,
    encodeCall_bursts bytes arg h, ?_, fun k hk => encodeCall_bursts_take bytes arg h hk⟩
  · simp [runResponses_length]
  · rw [runEffect_append]; exact ⟨rfl, rfl, rfl⟩

theorem encText_length (bytes : List Octet) : (encText bytes).length = 8 * ((bytes.length + 4) / 5) := by
  simp only [encText, List.length_append, List.length_map, List.length_range, List.length_replicate, symbolCount]
  omega

/-- Settles O46: the sizes add up to the length of the bursts, which spell `Enc`. -/
theorem encodedLength : Obligations.EncodedLength := by
  refine fun bytes => ⟨encText_length bytes, by omega, fun arg s h => ?_⟩
  refine ⟨_, _, runCommands_eq _ s, rfl, ?_⟩
  simp only [← burst_length]
  rw [← List.length_flatMap, encodeCall_bursts bytes arg h, encText_length]

/-! ### Cutting the input -/

/-- A multiple of 5 bytes is a multiple of 8 symbols, which are all of `Enc`. -/
theorem encText_of_length_mod_five {bytes : List Octet} (h : bytes.length % 5 = 0) :
    encText bytes = fieldSymbols (byteBits bytes) := by
  have hfill : 5 * symbolCount bytes.length - 8 * bytes.length = 0 := by rw [symbolCount]; omega
  have hpads : (8 - symbolCount bytes.length % 8) % 8 = 0 := by rw [symbolCount]; omega
  rw [encText_eq, hfill, hpads]
  simp

theorem encText_append_of_length_mod_five {b₁ : List Octet} (b₂ : List Octet) (h : b₁.length % 5 = 0) :
    encText (b₁ ++ b₂) = encText b₁ ++ encText b₂ := by
  have hcount : symbolCount (b₁ ++ b₂).length = 8 * (b₁.length / 5) + symbolCount b₂.length := by
    rw [List.length_append, symbolCount, symbolCount]; omega
  have hfill : 5 * symbolCount (b₁ ++ b₂).length - 8 * (b₁ ++ b₂).length =
      5 * symbolCount b₂.length - 8 * b₂.length := by
    rw [hcount, List.length_append]; omega
  have hwhole : (byteBits b₁).length % 5 = 0 := by rw [byteBits_length]; omega
  rw [encText_of_length_mod_five h, encText_eq (b₁ ++ b₂), hfill, hcount, Nat.mul_add_mod_self_left,
    byteBits_append, List.append_assoc, fieldSymbols_append _ hwhole, List.append_assoc, ← encText_eq]

/-- Below `m` stands a symbol of the alphabet (R124). -/
theorem encText_getElem?_of_lt {bytes : List Octet} {j : Nat} (h : j < symbolCount bytes.length) :
    ∃ v, (encText bytes)[j]? = some (alpha v) := by
  rw [encText, List.getElem?_append_left (by simpa using h), List.getElem?_map, List.getElem?_range h]
  exact ⟨_, rfl⟩

/-- Behind the last symbol of a number of bytes that 5 does not divide stands `=` (R124). -/
theorem encText_getElem?_symbolCount {bytes : List Octet} (h : bytes.length % 5 ≠ 0) :
    (encText bytes)[symbolCount bytes.length]? = some padChar := by
  rw [encText, List.getElem?_append_right (by simp), List.getElem?_replicate, if_pos]
  simp only [List.length_map, List.length_range, symbolCount]; omega

/-- Settles O47: behind a number of bytes that 5 does not divide, the first `=` of `Enc(B1)` stands where
`Enc(B1 ++ B2)` has a symbol of the alphabet. -/
theorem encodingInChunksOfFive : Obligations.EncodingInChunksOfFive := by
  refine ⟨fun b₁ b₂ h => encText_append_of_length_mod_five b₂ h, fun b₁ b₂ h hne => ?_⟩
  have hpad := encText_getElem?_symbolCount h
  refine ⟨List.mem_of_getElem? hpad, fun heq => ?_⟩
  have hmore : symbolCount b₁.length < symbolCount (b₁ ++ b₂).length := by
    have := List.length_pos_iff.2 hne
    rw [List.length_append, symbolCount, symbolCount]; omega
  obtain ⟨v, hv⟩ := encText_getElem?_of_lt hmore
  rw [heq, List.getElem?_append_left (List.getElem?_eq_some_iff.1 hpad).1, hpad] at hv
  exact (alpha_lt_and_ne_padChar v).2 (Option.some.inj hv).symm

end Sys2Proof.Machine

/-! The encoder with an accumulator of another width (spec/40_encoder.md R133): what stands above its held bits reaches
neither a symbol nor the bits held next. -/

namespace Sys2Proof.Machine

/-- The loop does not see the bits of the accumulator above the held ones. -/
theorem takeFields_mod_two_pow (k fuel acc bits : Nat) :
    takeFields k fuel (acc % 2 ^ bits) bits = takeFields k fuel acc bits := by
  induction fuel generalizing acc bits with
  | zero => rfl
  | succ fuel ih =>
    unfold takeFields
    split
    · next h =>
      have hpow : 2 ^ bits = 2 ^ (bits - k) * 2 ^ k := by rw [← Nat.pow_add, Nat.sub_add_cancel h]
      have hfield : (acc % 2 ^ bits) >>> (bits - k) &&& (2 ^ k - 1) = acc >>> (bits - k) &&& (2 ^ k - 1) := by
        simp only [Nat.and_two_pow_sub_one_eq_mod, Nat.shiftRight_eq_div_pow]
        rw [hpow, Nat.mod_mul_right_div_self, Nat.mod_mod]
      have hrest : takeFields k fuel (acc % 2 ^ bits) (bits - k) = takeFields k fuel acc (bits - k) := by
        rw [← ih, Nat.mod_mod_of_dvd _ (Nat.pow_dvd_pow 2 (Nat.sub_le bits k)), ih]
      simp only [hfield, hrest]
    · rfl

/-- An accumulator of at least 12 bits keeps the low 12 of every value. -/
theorem holdIn_mod_two_pow {width : Option Nat} (hwidth : ∀ w, width = some w → 12 ≤ w) (v : Nat) {n : Nat}
    (hn : n ≤ 12) : holdIn width v % 2 ^ n = v % 2 ^ n := by
  cases width with
  | none => rfl
  | some w => exact Nat.mod_mod_of_dvd v (Nat.pow_dvd_pow 2 (hn.trans (hwidth w rfl)))

/-- The low bits of an accumulator after a byte depend on its held bits only. -/
theorem mul_256_add_mod (acc b n : Nat) : (acc * 256 + b) % 2 ^ (n + 8) = (acc % 2 ^ n * 256 + b) % 2 ^ (n + 8) := by
  rw [← Nat.mod_add_mod, Nat.pow_add, Nat.mul_mod_mul_right]

/-- The two encoders hold the same bits and have emitted as many symbols; the wide one's accumulator may hold anything
above the held bits (R133). -/
abbrev WideEncoder.Matches (e : WideEncoder) (s : State) : Prop :=
  e.bits = s.ebits.toNat ∧ e.sym = s.esym.toNat ∧ e.acc % 2 ^ e.bits = s.eacc.toNat

/-- A push of the wide encoder emits what the core's push emits, and the encoders match again. -/
theorem widePush_matches {width : Option Nat} {e : WideEncoder} {s : State} (b : Octet)
    (hwidth : ∀ w, width = some w → 12 ≤ w) (hbits : s.ebits.toNat ≤ 4) (h : e.Matches s) :
    (commandResponse (.encPush b) s).burst = (widePush width b e).2 ∧
      (widePush width b e).1.Matches (commandEffect (.encPush b) s) := by
  obtain ⟨hb, hs, ha⟩ := h
  have hlow : holdIn width (e.acc * 256 + b.toNat) % 2 ^ (e.bits + 8) =
      (s.eacc.toNat * 256 + b.toNat) % 2 ^ (e.bits + 8) := by
    rw [holdIn_mod_two_pow hwidth _ (by omega), mul_256_add_mod, ha]
  have htaken : takeFields 5 (e.bits + 8) (holdIn width (e.acc * 256 + b.toNat)) (e.bits + 8) = pushFields b s := by
    rw [← takeFields_mod_two_pow, hlow, takeFields_mod_two_pow, pushFields, shiftLeft_or_byte, hb]
  obtain ⟨hsyms, hleft⟩ := pushFields_count b s
  refine ⟨?_, ?_, ?_, ?_⟩
  · simp only [encPush_burst, widePush, htaken]
  · simp only [widePush, htaken, hleft, commandEffect_encPush_ebits]
  · simp only [widePush, htaken, hsyms, commandEffect_encPush_esym, hs]
  · have hdvd : 2 ^ ((s.ebits.toNat + 8) % 5) ∣ 2 ^ (e.bits + 8) := Nat.pow_dvd_pow 2 (by omega)
    simp only [widePush, htaken, hleft, commandEffect_encPush_eacc]
    rw [← Nat.mod_mod_of_dvd _ hdvd, hlow, Nat.mod_mod_of_dvd _ hdvd]

/-- The final symbol is cut to 5 bits after the shift, so it too shows the held bits only. -/
theorem wideFin_eq_burst {width : Option Nat} {e : WideEncoder} {s : State} (arg : Octet)
    (hwidth : ∀ w, width = some w → 12 ≤ w) (hbits : s.ebits.toNat ≤ 4) (h : e.Matches s) :
    (commandResponse (.encFin arg) s).burst = wideFin width e := by
  obtain ⟨hb, hs, ha⟩ := h
  have hfinal : finalSymbol s.eacc s.ebits =
      if 0 < e.bits then [symbolChar (holdIn width (e.acc <<< (5 - e.bits)) &&& 0x1F)] else [] := by
    have hmask (v : Nat) : v &&& 0x1F = v % 2 ^ 5 := Nat.and_two_pow_sub_one_eq_mod v 5
    have hpow : 2 ^ 5 = 2 ^ e.bits * 2 ^ (5 - e.bits) := by rw [← Nat.pow_add]; congr 1; omega
    have hshift : e.acc <<< (5 - e.bits) % 2 ^ 5 = s.eacc.toNat <<< (5 - e.bits) % 2 ^ 5 := by
      rw [Nat.shiftLeft_eq, Nat.shiftLeft_eq, hpow, Nat.mul_mod_mul_right, Nat.mul_mod_mul_right, ← ha, Nat.mod_mod]
    rw [hmask, holdIn_mod_two_pow hwidth _ (by decide), hshift, ← hmask, hb]; rfl
  rw [encFin_burst, wideFin, ← hfinal, hs]

/-- From matching encoders a call has the same outputs, by induction on the bytes. -/
theorem encodeCall_bursts_eq_wideCall {width : Option Nat} (hwidth : ∀ w, width = some w → 12 ≤ w)
    (bytes : List Octet) (arg : Octet) {e : WideEncoder} {s : State} {k : Nat} (hs : s.EncAfter k) (h : e.Matches s) :
    (runResponses (bytes.map .encPush ++ [.encFin arg]) s).map Response.burst = wideCall width bytes e := by
  induction bytes generalizing e s k with
  | nil =>
    obtain ⟨hinv, -⟩ := encInv_and_encPhase_iff.2 ⟨k, hs⟩
    exact congrArg (· :: []) (wideFin_eq_burst arg hwidth hinv.1 h)
  | cons b rest ih =>
    obtain ⟨hinv, -⟩ := encInv_and_encPhase_iff.2 ⟨k, hs⟩
    obtain ⟨hburst, hnext⟩ := widePush_matches b hwidth hinv.1 h
    simp only [List.map_cons, List.cons_append, runResponses, wideCall, hburst, ih (encAfter_encPush b hs) hnext]

/-- Settles O48: a simulation in which the encoders agree on the held bits; 12 bits hold every byte with the held bits
before it. -/
theorem accumulatorWidthDoesNotShow : Obligations.AccumulatorWidthDoesNotShow := by
  intro width bytes arg s hwidth h
  refine ⟨_, _, runCommands_eq _ s, rfl, ?_⟩
  refine encodeCall_bursts_eq_wideCall hwidth bytes arg (encAfter_zero_of_cleared h) ?_
  obtain ⟨hacc, hbits, hsym⟩ := h
  rw [WideEncoder.Matches, hacc, hbits, hsym]; exact ⟨rfl, rfl, rfl⟩

end Sys2Proof.Machine

/-! The classifier (spec/41_classifier.md R151 to R158): what each of its four rules answers, said once over the octet
and its upper-case form, and the command `CLS`. -/

namespace Sys2Proof.Machine

/-- The letter an octet is compared as: 0x61 to 0x7A move down by 0x20 (R152). -/
theorem upperCase_toNat (c : Octet) :
    (upperCase c).toNat = if 0x61 ≤ c.toNat ∧ c.toNat ≤ 0x7A then c.toNat - 0x20 else c.toNat := by
  unfold upperCase
  split <;> split <;> bv_omega

/-- The string of R153 leaves out `I`, `L`, `O` and `U`. -/
theorem mem_letters22_iff (u : Octet) :
    u ∈ letters22 ↔ (0x41#8 ≤ u ∧ u ≤ 0x5A#8 ∧ u ≠ 0x55#8) ∧ ¬ (u = 0x49#8 ∨ u = 0x4C#8) ∧ u ≠ 0x4F#8 := by
  simp only [letters22, List.cons_append, List.nil_append, List.mem_cons, List.not_mem_nil, or_false]
  bv_omega

/-- A position in the string of R153 is below 22, so 6 bits hold the value of its letter. -/
theorem idxOf_letters22_lt {u : Octet} (h : u ∈ letters22) : letters22.idxOf u < 22 :=
  List.idxOf_lt_length_of_mem h

/-- What the classifier answers, by the rule that applies: a digit, the aliases of 1 and of 0, a letter of the
string, none of these (R151 to R154). -/
theorem classify_cases (c : Octet) :
    ((0x30 ≤ c.toNat ∧ c.toNat ≤ 0x39) ∧ (classify c).toNat = c.toNat - 0x30) ∨
    (¬ (0x30 ≤ c.toNat ∧ c.toNat ≤ 0x39) ∧
      ((upperCase c = 0x49#8 ∨ upperCase c = 0x4C#8) ∧ classify c = 1#6 ∨
        upperCase c = 0x4F#8 ∧ classify c = 0#6 ∨
        upperCase c ∈ letters22 ∧ (classify c).toNat = 10 + letters22.idxOf (upperCase c) ∨
        ¬ (0x41#8 ≤ upperCase c ∧ upperCase c ≤ 0x5A#8 ∧ upperCase c ≠ 0x55#8) ∧ classify c = 32#6)) := by
  unfold classify
  by_cases hdigit : 0x30#8 ≤ c ∧ c ≤ 0x39#8
  · rw [if_pos hdigit]
    left; bv_omega
  refine .inr ⟨hdigit, ?_⟩
  rw [if_neg hdigit]
  dsimp only
  by_cases hone : upperCase c = 0x49#8 ∨ upperCase c = 0x4C#8
  · exact .inl ⟨hone, if_pos hone⟩
  rw [if_neg hone]
  by_cases hzero : upperCase c = 0x4F#8
  · exact .inr (.inl ⟨hzero, if_pos hzero⟩)
  rw [if_neg hzero]
  by_cases hletter : 0x41#8 ≤ upperCase c ∧ upperCase c ≤ 0x5A#8 ∧ upperCase c ≠ 0x55#8
  · have hmem := (mem_letters22_iff _).2 ⟨hletter, hone, hzero⟩
    have hlt := idxOf_letters22_lt hmem
    rw [if_pos hletter, BitVec.toNat_ofNat, Nat.mod_eq_of_lt (by omega)]
    exact .inr (.inr (.inl ⟨hmem, rfl⟩))
  · exact .inr (.inr (.inr ⟨hletter, if_neg hletter⟩))

/-- Settles O17: the statement's conditions on the number of the letter are conditions on the letter, and each case of
`classify_cases` is the statement's clause for it. -/
theorem classifierRules : Obligations.ClassifierRules := by
  intro c u letters
  have hu : u = (upperCase c).toNat := (upperCase_toNat c).symm
  have hletters : letters = letters22.map BitVec.toNat := rfl
  have hmem : u ∈ letters ↔ upperCase c ∈ letters22 := by
    rw [hu, hletters, List.mem_map_of_injective fun _ _ => BitVec.eq_of_toNat_eq]
  clear_value u letters
  have hone : (u = 0x49 ∨ u = 0x4C) ↔ (upperCase c = 0x49#8 ∨ upperCase c = 0x4C#8) := by bv_omega
  have hzero : u = 0x4F ↔ upperCase c = 0x4F#8 := by bv_omega
  simp only [hone, hzero, hmem]
  rcases classify_cases c with ⟨hdigit, h⟩ | ⟨hdigit, ⟨halias, h⟩ | ⟨halias, h⟩ | ⟨hletter, h⟩ | ⟨hother, h⟩⟩
  · rwa [if_pos hdigit]
  · rw [if_neg hdigit, if_pos halias, h]; rfl
  · rw [if_neg hdigit, if_neg (by rw [halias]; decide), if_pos halias, h]; rfl
  · obtain ⟨-, hnotOne, hnotZero⟩ := (mem_letters22_iff _).1 hletter
    rw [if_neg hdigit, if_neg hnotOne, if_neg hnotZero, if_pos hletter, hletters, hu]
    exact ⟨_, idxOf_letters22_lt hletter, by rw [List.getElem?_map, List.getElem?_idxOf hletter]; rfl, h⟩
  · have hnotLetter : upperCase c ∉ letters22 := fun hin => hother ((mem_letters22_iff _).1 hin).1
    rw [if_neg hdigit, if_neg (by bv_omega), if_neg (by bv_omega), if_neg hnotLetter, h]; rfl

/-- The valid characters are the digits and, in either case, the letters but `U` (R155). -/
theorem validChar_iff_digit_or_letter (c : Octet) :
    validChar c = true ↔ (0x30 ≤ c.toNat ∧ c.toNat ≤ 0x39) ∨
      (0x41#8 ≤ upperCase c ∧ upperCase c ≤ 0x5A#8 ∧ upperCase c ≠ 0x55#8) := by
  rw [validChar_iff]
  rcases classify_cases c with ⟨hdigit, h⟩ | ⟨hdigit, ⟨halias, h⟩ | ⟨halias, h⟩ | ⟨hletter, h⟩ | ⟨hother, h⟩⟩
  · exact iff_of_true (by omega) (.inl hdigit)
  · exact iff_of_true (by rw [h]; decide) (.inr (by bv_omega))
  · exact iff_of_true (by rw [h]; decide) (.inr (by rw [halias]; decide))
  · have hlt := idxOf_letters22_lt hletter
    exact iff_of_true (by omega) (.inr ((mem_letters22_iff _).1 hletter).1)
  · exact iff_of_false (by rw [h]; decide) (not_or.2 ⟨hdigit, hother⟩)

/-- Settles O18: the bound is `validChar_iff`; the letters are those whose upper-case form is one; the count runs over
the 256 octets. -/
theorem validIsBelowTheSentinel : Obligations.ValidIsBelowTheSentinel := by
  refine ⟨validChar_iff, fun c => ?_, rfl⟩
  have hu := upperCase_toNat c
  rw [validChar_iff_digit_or_letter]
  split at hu <;> bv_omega

/-- Rules 2 to 4 see an octet by its upper-case form only (R152). -/
theorem classify_eq_of_upperCase_eq {c d : Octet} (hc : ¬ (0x30#8 ≤ c ∧ c ≤ 0x39#8))
    (hd : ¬ (0x30#8 ≤ d ∧ d ≤ 0x39#8)) (h : upperCase c = upperCase d) : classify c = classify d := by
  rw [classify, classify, if_neg hc, if_neg hd, h]

/-- The classifier inverts the alphabet (R158 (d)). -/
theorem classify_alpha_toNat : ∀ v : SymVal, (classify (alpha v)).toNat = v.toNat := by
  decide

/-- The upper-case form of a lower-case letter is an upper-case letter, and its own upper-case form (R152). -/
theorem upperCase_sub_of_lower {c : Octet} (h : 0x61#8 ≤ c ∧ c ≤ 0x7A#8) : upperCase (c - 0x20#8) = upperCase c := by
  have hnot : ¬ (0x61#8 ≤ c - 0x20#8 ∧ c - 0x20#8 ≤ 0x7A#8) := by bv_omega
  rw [upperCase, upperCase, if_neg hnot, if_pos h]

/-- Settles O19: neither form of a letter is a digit, and their upper-case forms are one; five octets are looked up; the
value of a symbol is below the sentinel. -/
theorem classifierInvertsTheAlphabet : Obligations.ClassifierInvertsTheAlphabet := by
  refine ⟨fun c hc => ?_, rfl, rfl, rfl, rfl, rfl, fun v => ⟨?_, classify_alpha_toNat v⟩⟩
  · exact classify_eq_of_upperCase_eq (by bv_omega) (by bv_omega) (upperCase_sub_of_lower hc).symm
  · rw [validChar_iff, classify_alpha_toNat]
    exact v.isLt

/-- The whole response of `CLS` (R156). -/
theorem classified_eq (c : Octet) :
    Response.classified c =
      { data := 0#64, n := 0#4, val := classify c, ok := decide ((classify c).toNat < 32), err := false,
        ill := false } := rfl

/-- Settles O20: `CLS` has no effect but its response. -/
theorem clsAnswersAndChangesNothing : Obligations.ClsAnswersAndChangesNothing := by
  intro c s
  have hword : (encode (.cls c)).toNat = Mnemonic.cls.opcode.toNat * 256 + c.toNat := commandWord_toNat _ c
  exact ⟨hword, (exec_eq (.cls c) s).trans (by rw [← classified_eq]; rfl)⟩

end Sys2Proof.Machine

/-! The decoder's commands, one at a time (spec/42_decoder.md R171 to R179). -/

namespace Sys2Proof.Machine

/-- The bytes of a group as fields of its accumulator (R173). -/
theorem groupBytes_eq (dacc : BitVec 40) (dbits : BitVec 6) :
    groupBytes dacc dbits = (List.range (dbits.toNat / 8)).map fun j =>
      BitVec.ofNat 8 (dacc.toNat / 2 ^ (dbits.toNat - 8 * (j + 1)) % 256) := by
  apply List.ext_getElem
  · rw [groupBytes_length, List.length_map, List.length_range]
  · intro j hj _
    apply BitVec.eq_of_toNat_eq
    rw [groupBytes_get, List.getElem_map, List.getElem_range, BitVec.toNat_ofNat, Nat.mod_mod]

theorem closeResponse_of_poisoned {s : State} (h : s.dpois = true) :
    closeResponse s = raiseError .decodeSymbolError Response.zero := by
  rw [closeResponse, if_pos h]

theorem closeResponse_of_clean {s : State} (h : s.dpois = false) :
    closeResponse s = Response.ofBurst (groupBytes s.dacc s.dbits) := by
  rw [closeResponse, h]; rfl

/-- What `Close` answers of a group that is not poisoned (R173). -/
theorem carries_closeResponse {s : State} (h : s.dpois = false) :
    (closeResponse s).Carries ((List.range (s.dbits.toNat / 8)).map fun j =>
      BitVec.ofNat 8 (s.dacc.toNat / 2 ^ (s.dbits.toNat - 8 * (j + 1)) % 256)) false := by
  have hbits := s.dbits.isLt
  rw [closeResponse_of_clean h, groupBytes_eq]
  exact carries_ofBurst _ (by rw [List.length_map, List.length_range]; omega)

/-- `DEC.PUSH` of a character that does not fill the group emits nothing (R174). -/
theorem exec_decPush_of_open {c : Octet} {s : State} (h : (acceptChar c s).dcnt.toNat ≠ 8) :
    exec (.decPush c) s = .next ((acceptChar c s).respond Response.zero) := by
  rw [exec_eq, commandEffect, commandResponse, if_neg h, if_neg h]

/-- `DEC.PUSH` of the 8th character closes the group (R173, R174). -/
theorem exec_decPush_of_full {c : Octet} {s : State} (h : (acceptChar c s).dcnt.toNat = 8) :
    exec (.decPush c) s = .next (s.clearDecoder.respond (closeResponse (acceptChar c s))) := by
  obtain ⟨_, _, _, _, heq⟩ := acceptChar_eq_setDecoder c s
  have hclear : (acceptChar c s).clearDecoder = s.clearDecoder := by rw [heq]; rfl
  rw [exec_eq, commandEffect, commandResponse, if_pos h, if_pos h, hclear]

theorem acceptChar_of_valid_of_poisoned {c : Octet} {s : State} (hv : validChar c = true) (hp : s.dpois = true) :
    acceptChar c s = s.countChar := by
  simp [acceptChar, hv, hp]

/-- In strict mode an invalid character poisons its group (R171 (c)). -/
theorem acceptChar_of_invalid_of_strict {c : Octet} {s : State} (hv : validChar c = false) (hs : s.strict = true) :
    acceptChar c s = s.poison.countChar := by
  simp [acceptChar, hv, hs]

/-- In filter mode an invalid character is skipped (R171 (b)). -/
theorem acceptChar_of_invalid_of_filter {c : Octet} {s : State} (hv : validChar c = false) (hs : s.strict = false) :
    acceptChar c s = s := by
  simp [acceptChar, hv, hs]

theorem validChar_eq_false_of_classify {c : Octet} (h : classify c = 32#6) : validChar c = false := by
  rw [validChar, h]; rfl

theorem dcnt_succ_eq (n : BitVec 4) : n + 1#4 = BitVec.ofNat 4 (n.toNat + 1) := by
  bv_omega

/-- The registers after a symbol shifted in and counted, as arithmetic (R171, R172). -/
theorem shiftIn_countChar_eq {s : State} {v : BitVec 6} (hv : v.toNat < 32) :
    (s.shiftIn v).countChar = s.setDecoder (BitVec.ofNat 40 (s.dacc.toNat * 32 + v.toNat))
      (BitVec.ofNat 6 (s.dbits.toNat + 5)) (BitVec.ofNat 4 (s.dcnt.toNat + 1)) s.dpois := by
  have hbits : s.dbits + 5#6 = BitVec.ofNat 6 (s.dbits.toNat + 5) := by bv_omega
  have hacc : s.dacc.toNat <<< 5 ||| v.toNat = s.dacc.toNat * 32 + v.toNat := shiftLeft_or_eq 5 _ _ hv
  rw [State.countChar, State.shiftIn_dacc, State.shiftIn_dbits, State.shiftIn_dcnt, dcnt_succ_eq, hbits, hacc]; rfl

/-- A group is poisoned once it holds an invalid character that strict mode accepted (R172). -/
theorem acceptChar_dpois (c : Octet) (s : State) :
    (acceptChar c s).dpois = (s.dpois || (!validChar c && s.strict)) := by
  rcases acceptChar_cases c s with ⟨hv, hp, e⟩ | ⟨hv, hp, e⟩ | ⟨hv, hs, e⟩ | ⟨hv, hs, e⟩ <;> simp [*]

/-- An accepted character raises the counter by one (R171). -/
theorem acceptChar_dcnt_of_accepted {c : Octet} {s : State} (hcnt : s.dcnt.toNat ≤ 7)
    (h : validChar c = true ∨ s.strict = true) : (acceptChar c s).dcnt.toNat = s.dcnt.toNat + 1 := by
  rw [acceptChar_dcnt_toNat c hcnt, if_pos h]

/-- Settles O27: the group stays open; a clean group takes the symbol in, a poisoned one counts it. -/
theorem decPushAcceptsAValidSymbol : Obligations.DecPushAcceptsAValidSymbol := by
  rintro c s - hv hcnt
  have hvalid := (validChar_iff c).2 hv
  have hcnt' := acceptChar_dcnt_of_accepted (c := c) (s := s) (by omega) (.inl hvalid)
  rw [exec_decPush_of_open (by omega)]
  cases hp : s.dpois with
  | false => rw [acceptChar_of_valid hvalid hp, shiftIn_countChar_eq hv, hp]; rfl
  | true => rw [acceptChar_of_valid_of_poisoned hvalid hp, State.countChar, dcnt_succ_eq, hp]; rfl

/-- Settles O28: the state is as before, so the group is not full. -/
theorem decPushSkipsInFilterMode : Obligations.DecPushSkipsInFilterMode := by
  rintro c s ⟨hcnt, -⟩ hc hs
  have hskip := acceptChar_of_invalid_of_filter (validChar_eq_false_of_classify hc) hs
  rw [exec_decPush_of_open (by rw [hskip]; omega), hskip]; rfl

/-- Settles O29: the group stays open, poisoned. -/
theorem decPushPoisonsInStrictMode : Obligations.DecPushPoisonsInStrictMode := by
  rintro c s - hc hs hcnt
  have hcnt' := acceptChar_dcnt_of_accepted (c := c) (s := s) (by omega) (.inr hs)
  rw [exec_decPush_of_open (by omega), acceptChar_of_invalid_of_strict (validChar_eq_false_of_classify hc) hs,
    State.countChar, State.poison_dcnt, dcnt_succ_eq]
  rfl

/-- Settles O30: the 8th symbol makes 40 held bits, which is five bytes. -/
theorem eighthSymbolEmitsFiveBytes : Obligations.EighthSymbolEmitsFiveBytes := by
  rintro c s hinv hv hcnt hp acc
  have hvalid := (validChar_iff c).2 hv
  have hfull : (acceptChar c s).dcnt.toNat = 8 := by
    rw [acceptChar_dcnt_of_accepted (by omega) (.inl hvalid), hcnt]
  have hclean : (acceptChar c s).dpois = false := by rw [acceptChar_dpois, hp, hvalid]; rfl
  have hbits : (acceptChar c s).dbits.toNat = 40 := acceptChar_full_dbits hinv hfull hclean
  obtain ⟨hacc, -⟩ := noRegisterWriteTruncates.2.1 c s hinv hv hp
  have hcarries := carries_closeResponse hclean
  rw [hbits, hacc] at hcarries
  exact ⟨_, exec_decPush_of_full hfull, hcarries⟩

/-- Settles O31: the group is full, and poisoned before or by the character. -/
theorem eighthCharacterFailsAPoisonedGroup : Obligations.EighthCharacterFailsAPoisonedGroup := by
  rintro c s - hcnt hs hpois
  have hfull : (acceptChar c s).dcnt.toNat = 8 := by
    rw [acceptChar_dcnt_of_accepted (by omega) (.inr hs), hcnt]
  have hp : (acceptChar c s).dpois = true := by
    rw [acceptChar_dpois]
    rcases hpois with hp | hc
    · rw [hp, Bool.true_or]
    · rw [validChar_eq_false_of_classify hc, hs]; exact Bool.or_true _
  rw [exec_decPush_of_full hfull, closeResponse_of_poisoned hp]; rfl

/-- Settles O32: the held bits of a clean group are 5 for each of its symbols. -/
theorem decFinClosesTheGroup : Obligations.DecFinClosesTheGroup := by
  rintro arg s ⟨-, -, -, hheld, -⟩
  refine ⟨encode_withArg_toNat .decFin arg (by decide), closeResponse s, exec_eq _ s, fun hp => ?_, fun hp => ?_⟩
  · rw [closeResponse_of_poisoned hp]; decide
  · rw [← hheld hp]; exact carries_closeResponse hp

/-- The bytes of a group are above its discarded bits (R179). -/
theorem groupBytes_congr {a b : BitVec 40} {n : BitVec 6}
    (h : b.toNat / 2 ^ (n.toNat % 8) = a.toNat / 2 ^ (n.toNat % 8)) : groupBytes b n = groupBytes a n := by
  have habove (x : BitVec 40) {j : Nat} (hj : j < n.toNat / 8) :
      x.toNat / 2 ^ (n.toNat - 8 * (j + 1)) =
        x.toNat / 2 ^ (n.toNat % 8) / 2 ^ (n.toNat - 8 * (j + 1) - n.toNat % 8) := by
    rw [Nat.div_div_eq_div_mul, ← Nat.pow_add, Nat.add_sub_cancel' (by omega)]
  rw [groupBytes_eq, groupBytes_eq]
  refine List.map_congr_left fun j hj => ?_
  rw [habove b (List.mem_range.1 hj), habove a (List.mem_range.1 hj), h]

/-- Settles O35: the two groups have the same bytes. -/
theorem discardedBitsDoNotShow : Obligations.DiscardedBitsDoNotShow := by
  intro arg s u hs hu hbits hacc
  have hresponse : closeResponse u = closeResponse s := by
    rw [closeResponse_of_clean hs, closeResponse_of_clean hu, hbits, groupBytes_congr hacc]
  exact ⟨_, _, closeResponse s, exec_eq _ s, exec_eq _ u, rfl, by rw [← hresponse]; rfl⟩

/-- Settles O33: the command is `clearDecoder` and the all-zero response. -/
theorem decClrAbandonsTheGroup : Obligations.DecClrAbandonsTheGroup := fun arg s =>
  ⟨encode_withArg_toNat .decClr arg (by decide), exec_eq _ s⟩

/-- Settles O34: the command is that and the mode from the operand's lowest bit. -/
theorem decCfgSetsTheMode : Obligations.DecCfgSetsTheMode := by
  refine fun arg s => ⟨encode_withArg_toNat .decCfg arg (by decide), ?_⟩
  rw [exec_eq, commandEffect, modeBit_eq]; rfl

end Sys2Proof.Machine

/-! Bytes and symbol values as fields of a string of bits (spec/20_memory.md R55, R56; spec/42_decoder.md R180, R184). -/

namespace Sys2Proof.Machine

theorem symbolBits_append (v w : List SymVal) : symbolBits (v ++ w) = symbolBits v ++ symbolBits w := by
  simp only [symbolBits, List.flatMap_append]

theorem symbolBits_singleton (v : SymVal) : symbolBits [v] = bitString 5 v.toNat := by
  simp [symbolBits]

theorem symbolBits_length (values : List SymVal) : (symbolBits values).length = 5 * values.length := by
  induction values with
  | nil => rfl
  | cons v rest ih =>
    rw [symbolBits, List.flatMap_cons, List.length_append, bitString_length, ← symbolBits, ih, List.length_cons]
    omega

theorem symbolValues_append (x y : List Octet) : symbolValues (x ++ y) = symbolValues x ++ symbolValues y := by
  simp only [symbolValues, List.filter_append, List.map_append]

/-- An invalid character has no value (R182). -/
theorem symbolValues_of_invalid {text : List Octet} (h : ∀ c ∈ text, validChar c = false) : symbolValues text = [] := by
  rw [symbolValues, List.filter_eq_nil_iff.2 (by simpa using h), List.map_nil]

theorem symbolValues_filter_validChar (text : List Octet) :
    symbolValues (text.filter validChar) = symbolValues text := by
  rw [symbolValues, List.filter_filter]; simp only [Bool.and_self]; rfl

theorem symbolValues_length_of_valid {text : List Octet} (h : text.all validChar = true) :
    (symbolValues text).length = text.length := by
  rw [symbolValues, List.length_map, List.filter_eq_self.2 (List.all_eq_true.1 h)]

/-- Eight symbols are five bytes, so cutting the values there cuts the bytes (R180). -/
theorem bytesOf_append {v : List SymVal} (w : List SymVal) (h : v.length % 8 = 0) :
    bytesOf (v ++ w) = bytesOf v ++ bytesOf w := by
  have hlen : 5 * (v ++ w).length / 8 = 5 * v.length / 8 + 5 * w.length / 8 := by rw [List.length_append]; omega
  have hbits := symbolBits_length v
  rw [bytesOf, hlen, List.range_add, List.map_append, List.map_map, symbolBits_append]
  congr 1
  · refine List.map_congr_left fun i hi => ?_
    rw [List.mem_range] at hi
    rw [bitField_append_left _ (by omega)]
  · refine List.map_congr_left fun i _ => ?_
    rw [Function.comp_apply, bitField_append_right _ i (by omega)]

/-! ### Back from the symbols to the bits -/

/-- The lowest bit stands last. -/
theorem bitString_succ_eq_append (w v : Nat) : bitString (w + 1) v = bitString w (v / 2) ++ [v.testBit 0] := by
  induction w with
  | zero => rfl
  | succ w ih => rw [bitString, ih, Nat.testBit_succ]; rfl

/-- The number that a string spells has the string's bits. -/
theorem bitString_bitsValue (bits : List Bool) : bitString bits.length (bitsValue bits) = bits := by
  induction bits using List.reverseRecOn with
  | nil => rfl
  | append_singleton bits b ih =>
    have hvalue : bitsValue (bits ++ [b]) = 2 * bitsValue bits + b.toNat := by simp [bitsValue]
    have hhigh : (2 * bitsValue bits + b.toNat) / 2 = bitsValue bits := by have := b.toNat_lt; omega
    have hlow : (2 * bitsValue bits + b.toNat).testBit 0 = b := by cases b <;> simp
    rw [List.length_append, List.length_singleton, bitString_succ_eq_append, hvalue, hhigh, hlow, ih]

/-- The fields of a string, joined, are the string up to the last of them. -/
theorem flatMap_fields (k n : Nat) (bits : List Bool) :
    ((List.range n).flatMap fun j => (bits.drop (k * j)).take k) = bits.take (k * n) := by
  induction n with
  | zero => simp
  | succ n ih =>
    rw [List.range_succ, List.flatMap_append, ih, List.flatMap_singleton, Nat.mul_succ, List.take_add]

/-- A 5-bit field, read as a symbol value, spells the field's bits (R56). -/
theorem bitString_bitField {bits : List Bool} {j : Nat} (h : 5 * (j + 1) ≤ bits.length) :
    bitString 5 (BitVec.ofNat 5 (bitField 5 bits j)).toNat = (bits.drop (5 * j)).take 5 := by
  have hlen : ((bits.drop (5 * j)).take 5).length = 5 := by rw [List.length_take, List.length_drop]; omega
  have hlt := bitsValue_lt ((bits.drop (5 * j)).take 5)
  have hstring := bitString_bitsValue ((bits.drop (5 * j)).take 5)
  rw [hlen] at hlt hstring
  rw [BitVec.toNat_ofNat, bitField, Nat.mod_eq_of_lt hlt, hstring]

theorem validChar_alpha (v : SymVal) : validChar (alpha v) = true := by
  rw [validChar_iff, classify_alpha_toNat]
  exact v.isLt

theorem classify_alpha_setWidth (v : SymVal) : (classify (alpha v)).setWidth 5 = v := by
  apply BitVec.eq_of_toNat_eq
  rw [classify_setWidth_toNat _ (validChar_alpha v), classify_alpha_toNat]

theorem all_validChar_fieldSymbols (bits : List Bool) : (fieldSymbols bits).all validChar = true := by
  simp [fieldSymbols, symbolChar, validChar_alpha]

/-- The values of a string's symbols are its fields (R158 (d)). -/
theorem symbolValues_fieldSymbols (bits : List Bool) :
    symbolValues (fieldSymbols bits) =
      (List.range (bits.length / 5)).map fun j => BitVec.ofNat 5 (bitField 5 bits j) := by
  rw [symbolValues, List.filter_eq_self.2 (List.all_eq_true.1 (all_validChar_fieldSymbols bits)), fieldSymbols,
    List.map_map]
  exact List.map_congr_left fun j _ => classify_alpha_setWidth _

theorem symbolBits_symbolValues_fieldSymbols {bits : List Bool} (h : bits.length % 5 = 0) :
    symbolBits (symbolValues (fieldSymbols bits)) = bits := by
  have hfields : ∀ j ∈ List.range (bits.length / 5),
      bitString 5 (BitVec.ofNat 5 (bitField 5 bits j)).toNat = (bits.drop (5 * j)).take 5 := by
    intro j hj
    rw [List.mem_range] at hj
    exact bitString_bitField (by omega)
  rw [symbolValues_fieldSymbols, symbolBits, List.flatMap_map, List.flatMap_congr hfields, flatMap_fields,
    List.take_of_length_le (by omega)]

/-- Field `i` of the bytes' bits is byte `i` (R55). -/
theorem bitField_byteBits (bytes : List Octet) (i : Nat) (h : i < bytes.length) :
    bitField 8 (byteBits bytes) i = bytes[i].toNat := by
  induction bytes generalizing i with
  | nil => cases h
  | cons b rest ih =>
    have hlen := bitString_length 8 b.toNat
    rw [byteBits, List.flatMap_cons, ← byteBits]
    cases i with
    | zero =>
      rw [bitField_append_left _ (by omega), bitField, Nat.mul_zero, List.drop_zero, List.take_of_length_le (by omega),
        bitsValue_bitString, Nat.mod_eq_of_lt b.isLt, List.getElem_cons_zero]
    | succ i =>
      rw [List.getElem_cons_succ, Nat.add_comm i 1, bitField_append_right _ i (by omega)]
      exact ih i (Nat.lt_of_succ_lt_succ h)

/-- Decoding what `Enc` makes of the bytes gives them back; the `=` have no value and the filling is less than a byte
(R184). -/
theorem bytesOf_symbolValues_encText (bytes : List Octet) : bytesOf (symbolValues (encText bytes)) = bytes := by
  have hpad : symbolValues (List.replicate ((8 - symbolCount bytes.length % 8) % 8) padChar) = [] :=
    symbolValues_of_invalid fun c hc => by rw [List.eq_of_mem_replicate hc]; decide
  have hbits : (byteBits bytes ++ List.replicate (5 * symbolCount bytes.length - 8 * bytes.length) false).length =
      5 * symbolCount bytes.length := by
    rw [List.length_append, byteBits_length, List.length_replicate, symbolCount]; omega
  have hsymbols := symbolBits_symbolValues_fieldSymbols (Nat.mod_eq_zero_of_dvd ⟨_, hbits⟩)
  have hcount := congrArg List.length hsymbols
  rw [symbolBits_length, hbits] at hcount
  rw [encText_eq, symbolValues_append, hpad, List.append_nil, bytesOf, hsymbols, hcount]
  apply List.ext_getElem
  · rw [List.length_map, List.length_range, symbolCount]; omega
  · intro i _ hi
    rw [List.getElem_map, List.getElem_range, bitField_append_left _ (by rw [byteBits_length]; omega),
      bitField_byteBits bytes i hi, BitVec.ofNat_toNat, BitVec.setWidth_eq]

end Sys2Proof.Machine

/-! The open group of the decoder as the characters it has accepted (spec/42_decoder.md R171 to R174, R181). -/

namespace Sys2Proof.Machine

/-- The bits a group of these characters holds: those of its symbols, and none once it is poisoned (R172). -/
def groupBits (group : List Octet) : List Bool :=
  if group.all validChar then symbolBits (symbolValues group) else []

/-- The decoder's open group is these characters (R24 to R27). -/
abbrev State.HoldsGroup (s : State) (group : List Octet) : Prop :=
  s.dcnt.toNat = group.length ∧ s.dpois = !group.all validChar ∧
  s.dbits.toNat = (groupBits group).length ∧ s.dacc.toNat = bitsValue (groupBits group)

/-- What the core answers where it closes a group of these characters: `DecCall` of it (R181, R183). -/
def callResponse (group : List Octet) : Response :=
  if group.all validChar then Response.ofBurst (bytesOf (symbolValues group))
  else raiseError .decodeSymbolError Response.zero

theorem groupBits_of_valid {group : List Octet} (h : group.all validChar = true) :
    groupBits group = symbolBits (symbolValues group) := if_pos h

theorem groupBits_of_invalid {group : List Octet} (h : group.all validChar = false) : groupBits group = [] :=
  if_neg (by simp [h])

theorem groupBits_length_le (group : List Octet) : (groupBits group).length ≤ 5 * group.length := by
  cases h : group.all validChar with
  | true => rw [groupBits_of_valid h, symbolBits_length, symbolValues_length_of_valid h]
  | false => rw [groupBits_of_invalid h]; exact Nat.zero_le _

theorem holdsGroup_nil_iff {s : State} : s.HoldsGroup [] ↔ s.DecCleared := by
  constructor
  · rintro ⟨hcnt, hpois, hlen, hacc⟩
    exact ⟨BitVec.eq_of_toNat_eq hacc, BitVec.eq_of_toNat_eq hlen, BitVec.eq_of_toNat_eq hcnt, hpois⟩
  · rintro ⟨hacc, hlen, hcnt, hpois⟩
    rw [State.HoldsGroup, hacc, hlen, hcnt, hpois]
    exact ⟨rfl, rfl, rfl, rfl⟩

/-- A valid symbol comes behind the bits of a clean group. -/
theorem groupBits_append_valid {group : List Octet} {c : Octet} (h : group.all validChar = true)
    (hv : validChar c = true) : groupBits (group ++ [c]) = groupBits group ++ bitString 5 (classify c).toNat := by
  have hvalue : symbolValues [c] = [(classify c).setWidth 5] := by simp [symbolValues, hv]
  rw [groupBits_of_valid h, groupBits_of_valid (by simp [h, hv]), symbolValues_append, symbolBits_append, hvalue,
    symbolBits_singleton, classify_setWidth_toNat c hv]

/-- A valid symbol shifted into a clean group joins it (R172). -/
theorem holdsGroup_shiftIn_countChar {s : State} {group : List Octet} {c : Octet} (h : s.HoldsGroup group)
    (hlen : group.length ≤ 7) (hclean : group.all validChar = true) (hv : validChar c = true) :
    (s.shiftIn (classify c)).countChar.HoldsGroup (group ++ [c]) := by
  obtain ⟨hcnt, hpois, hbits, hacc⟩ := h
  have hle := groupBits_length_le group
  have hsymbol := (validChar_iff c).1 hv
  have hfits : s.dacc.toNat < 2 ^ s.dbits.toNat := by rw [hacc, hbits]; exact bitsValue_lt _
  rw [State.HoldsGroup, groupBits_append_valid hclean hv]
  refine ⟨?_, by simp [hpois, hv], ?_, ?_⟩
  · rw [List.length_append, List.length_singleton, ← hcnt]
    exact countChar_dcnt_toNat (s := s.shiftIn (classify c)) (by rw [State.shiftIn_dcnt]; omega)
  · rw [List.length_append, bitString_length, ← hbits]
    exact shiftIn_dbits_toNat (classify c) (by omega)
  · rw [bitsValue_append, bitString_length, bitsValue_bitString, Nat.mod_eq_of_lt (b := 2 ^ 5) hsymbol, ← hacc]
    exact shiftIn_dacc_toNat hfits (by omega) hsymbol

/-- A poisoned group of no bits, with a character counted, is the poisoned group with that character (R172). -/
theorem holdsGroup_countChar_of_poisoned {s : State} {group : List Octet} {c : Octet}
    (hcnt : s.dcnt.toNat = group.length) (hlen : group.length ≤ 7) (hpois : s.dpois = true) (hbits : s.dbits = 0#6)
    (hacc : s.dacc = 0#40) (hinvalid : (group ++ [c]).all validChar = false) :
    s.countChar.HoldsGroup (group ++ [c]) := by
  rw [State.HoldsGroup, groupBits_of_invalid hinvalid, hinvalid, countChar_dcnt_toNat (by omega), hcnt]
  refine ⟨by rw [List.length_append, List.length_singleton], hpois, ?_, ?_⟩
  · rw [State.countChar_dbits, hbits]; rfl
  · rw [State.countChar_dacc, hacc]; rfl

/-- An accepted character joins the open group, in each of the ways it can be accepted (R171, R172). -/
theorem holdsGroup_acceptChar {s : State} {group : List Octet} {c : Octet} (h : s.HoldsGroup group)
    (hlen : group.length ≤ 7) (hc : validChar c = true ∨ s.strict = true) :
    (acceptChar c s).HoldsGroup (group ++ [c]) := by
  have ⟨hcnt, hpois, hbits, hacc⟩ := h
  rcases acceptChar_cases c s with ⟨hv, hp, e⟩ | ⟨hv, hp, e⟩ | ⟨hv, -, e⟩ | ⟨hv, hs, -⟩
  · rw [e]
    exact holdsGroup_shiftIn_countChar h hlen (by simpa [hp] using hpois) hv
  · have hgroup : group.all validChar = false := by simpa [hp] using hpois
    rw [groupBits_of_invalid hgroup] at hbits hacc
    rw [e]
    exact holdsGroup_countChar_of_poisoned hcnt hlen hp (BitVec.eq_of_toNat_eq hbits) (BitVec.eq_of_toNat_eq hacc)
      (by rw [List.all_append, hgroup, Bool.false_and])
  · rw [e]
    exact holdsGroup_countChar_of_poisoned hcnt hlen rfl rfl rfl (by simp [hv])
  · simp [hv, hs] at hc

/-- `Bytes` of the symbols a clean group holds is what the loop takes from its accumulator (R173, R180). -/
theorem groupBytes_of_holdsGroup {s : State} {group : List Octet} (h : s.HoldsGroup group)
    (hclean : group.all validChar = true) : groupBytes s.dacc s.dbits = bytesOf (symbolValues group) := by
  obtain ⟨-, -, hbits, hacc⟩ := h
  have hlen := symbolBits_length (symbolValues group)
  rw [groupBits_of_valid hclean] at hbits hacc
  rw [groupBytes_eq, bytesOf, ← hlen, hbits, hacc]
  refine List.map_congr_left fun j hj => ?_
  rw [List.mem_range] at hj
  rw [bitField_eq 8 _ j (by omega)]; rfl

theorem closeResponse_of_holdsGroup {s : State} {group : List Octet} (h : s.HoldsGroup group) :
    closeResponse s = callResponse group := by
  have ⟨_, hpois, _⟩ := h
  cases hclean : group.all validChar with
  | true =>
    rw [closeResponse_of_clean (by rw [hpois, hclean]; rfl), groupBytes_of_holdsGroup h hclean, callResponse,
      if_pos hclean]
  | false =>
    rw [closeResponse_of_poisoned (by rw [hpois, hclean]; rfl), callResponse, if_neg (by simp [hclean])]

theorem bytesOf_length (values : List SymVal) : (bytesOf values).length = 5 * values.length / 8 := by
  rw [bytesOf, List.length_map, List.length_range]

/-- The answer of a group is `DecCall` of it: its bytes, and `err` where it fails (R181, R183). -/
theorem callResponse_spec {group : List Octet} (h : group.length ≤ 8) :
    (callResponse group).burst = (decCall group).1 ∧ (callResponse group).err = !(decCall group).2 := by
  cases hclean : group.all validChar with
  | true =>
    have hlen := bytesOf_length (symbolValues group)
    rw [symbolValues_length_of_valid hclean] at hlen
    rw [callResponse, decCall, if_pos hclean, if_pos hclean, burst_ofBurst _ (by omega)]
    exact ⟨rfl, rfl⟩
  | false =>
    rw [callResponse, decCall, if_neg (by simp [hclean]), if_neg (by simp [hclean]), burst_raiseError, burst_zero]
    exact ⟨rfl, rfl⟩

/-! ### One `DEC.PUSH` -/

theorem commandEffect_decPush_strict (c : Octet) (s : State) : (commandEffect (.decPush c) s).strict = s.strict := by
  obtain ⟨_, _, _, _, _, heff, hstrict⟩ := commandEffect_decoder (i := .decPush c) rfl s
  rw [heff]; exact hstrict nofun

/-- A character that leaves the group open joins it, and is answered by nothing (R174). -/
theorem decPush_of_open {s : State} {group : List Octet} {c : Octet} (h : s.HoldsGroup group)
    (hlen : group.length < 7) (hc : validChar c = true ∨ s.strict = true) :
    (commandEffect (.decPush c) s).HoldsGroup (group ++ [c]) ∧ commandResponse (.decPush c) s = Response.zero := by
  have hjoined := holdsGroup_acceptChar h (by omega) hc
  have ⟨hcnt, _⟩ := hjoined
  have hopen : (acceptChar c s).dcnt.toNat ≠ 8 := by
    rw [hcnt, List.length_append, List.length_singleton]; omega
  rw [commandEffect, commandResponse, if_neg hopen, if_neg hopen]
  exact ⟨hjoined, rfl⟩

/-- The 8th character closes the group it joins (R174). -/
theorem decPush_of_full {s : State} {group : List Octet} {c : Octet} (h : s.HoldsGroup group)
    (hlen : group.length = 7) (hc : validChar c = true ∨ s.strict = true) :
    (commandEffect (.decPush c) s).HoldsGroup [] ∧
      commandResponse (.decPush c) s = callResponse (group ++ [c]) := by
  have hjoined := holdsGroup_acceptChar h (by omega) hc
  have ⟨hcnt, _⟩ := hjoined
  have hfull : (acceptChar c s).dcnt.toNat = 8 := by
    rw [hcnt, List.length_append, List.length_singleton, hlen]
  rw [commandEffect, commandResponse, if_pos hfull, if_pos hfull]
  exact ⟨holdsGroup_nil_iff.2 ⟨rfl, rfl, rfl, rfl⟩, closeResponse_of_holdsGroup hjoined⟩

/-- A skipped character leaves the group, and is answered by nothing (R171 (b)). -/
theorem decPush_of_skipped {s : State} {group : List Octet} {c : Octet} (h : s.HoldsGroup group)
    (hlen : group.length ≤ 7) (hv : validChar c = false) (hs : s.strict = false) :
    commandEffect (.decPush c) s = s ∧ commandResponse (.decPush c) s = Response.zero := by
  have ⟨hcnt, _⟩ := h
  have hskip := acceptChar_of_invalid_of_filter hv hs
  have hopen : (acceptChar c s).dcnt.toNat ≠ 8 := by rw [hskip, hcnt]; omega
  rw [commandEffect, commandResponse, if_neg hopen, if_neg hopen]
  exact ⟨hskip, rfl⟩

end Sys2Proof.Machine

/-! A whole decode call (spec/42_decoder.md R182 to R186): the accepted characters of a text, cut into windows of 8. -/

namespace Sys2Proof.Machine

/-! ### Windows -/

/-- The characters of the full windows of a text (R183). -/
def closedPart (text : List Octet) : List Octet := text.take (8 * (text.length / 8))

/-- The characters of a text behind its full windows: the group left open (R26, R183). -/
def openGroup (text : List Octet) : List Octet := text.drop (8 * (text.length / 8))

theorem closedPart_append_openGroup (text : List Octet) : closedPart text ++ openGroup text = text :=
  List.take_append_drop _ text

theorem openGroup_length (text : List Octet) : (openGroup text).length = text.length % 8 := by
  rw [openGroup, List.length_drop]; omega

theorem closedPart_length_mod (text : List Octet) : (closedPart text).length % 8 = 0 := by
  rw [closedPart, List.length_take]; omega

theorem closedPart_of_length_mod {text : List Octet} (h : text.length % 8 = 0) : closedPart text = text :=
  List.take_of_length_le (by omega)

theorem openGroup_of_length_mod {text : List Octet} (h : text.length % 8 = 0) : openGroup text = [] :=
  List.drop_of_length_le (by omega)

/-- A character that does not fill the last window joins the open group. -/
theorem parts_append_of_open {text : List Octet} (c : Octet) (h : text.length % 8 < 7) :
    closedPart (text ++ [c]) = closedPart text ∧ openGroup (text ++ [c]) = openGroup text ++ [c] := by
  have hcut : (text ++ [c]).length / 8 = text.length / 8 := by rw [List.length_append, List.length_singleton]; omega
  rw [closedPart, openGroup, hcut]
  exact ⟨List.take_append_of_le_length (by omega), List.drop_append_of_le_length (by omega)⟩

/-- A character that fills the last window closes it. -/
theorem parts_append_of_full {text : List Octet} (c : Octet) (h : text.length % 8 = 7) :
    closedPart (text ++ [c]) = closedPart text ++ (openGroup text ++ [c]) ∧ openGroup (text ++ [c]) = [] := by
  have hmod : (text ++ [c]).length % 8 = 0 := by rw [List.length_append, List.length_singleton]; omega
  rw [closedPart_of_length_mod hmod, openGroup_of_length_mod hmod, ← List.append_assoc, closedPart_append_openGroup]
  exact ⟨rfl, rfl⟩

/-- A full window does not change with what comes behind it. -/
theorem window_append {x : List Octet} {j : Nat} (y : List Octet) (h : 8 * (j + 1) ≤ x.length) :
    window (x ++ y) j = window x j := by
  rw [window, window, List.drop_append_of_le_length (by omega),
    List.take_append_of_le_length (by rw [List.length_drop]; omega)]

theorem window_last (text : List Octet) : window text (text.length / 8) = openGroup text := by
  rw [window, openGroup, List.take_of_length_le (by rw [List.length_drop]; omega)]

theorem window_last_of_full {text : List Octet} (c : Octet) (h : text.length % 8 = 7) :
    window (text ++ [c]) (text.length / 8) = openGroup text ++ [c] := by
  have hlen := openGroup_length text
  rw [window, List.drop_append_of_le_length (by omega), ← openGroup,
    List.take_of_length_le (by rw [List.length_append, List.length_singleton]; omega)]

theorem window_length_le (text : List Octet) (k : Nat) : (window text k).length ≤ 8 := List.length_take_le _ _

/-! ### The open group after the pushes -/

/-- The characters of a text that are not skipped: all of them in strict mode, the valid ones in filter mode (R171). -/
def acceptedChars (strict : Bool) (text : List Octet) : List Octet := text.filter fun c => validChar c || strict

theorem acceptedChars_strict (text : List Octet) : acceptedChars true text = text := by
  simp [acceptedChars]

theorem acceptedChars_filter (text : List Octet) : acceptedChars false text = text.filter validChar := by
  simp [acceptedChars]

theorem acceptedChars_append_of_accepted {strict : Bool} {c : Octet} (text : List Octet)
    (h : validChar c = true ∨ strict = true) : acceptedChars strict (text ++ [c]) = acceptedChars strict text ++ [c] := by
  have hc : (validChar c || strict) = true := by simpa using h
  rw [acceptedChars, List.filter_append, List.filter_singleton, hc]; rfl

theorem acceptedChars_append_of_skipped {strict : Bool} {c : Octet} (text : List Octet) (hv : validChar c = false)
    (hs : strict = false) : acceptedChars strict (text ++ [c]) = acceptedChars strict text := by
  simp [acceptedChars, hv, hs]

/-- The decoder after these characters, in this mode: its open group is what the full windows of the accepted ones
leave. -/
abbrev State.AfterChars (s : State) (strict : Bool) (text : List Octet) : Prop :=
  s.HoldsGroup (openGroup (acceptedChars strict text)) ∧ s.strict = strict

/-- What `DEC.PUSH c` can do after these characters: skip, join the open window, or close it (R171, R174). -/
theorem decPush_cases {s : State} {strict : Bool} {text : List Octet} (c : Octet) (h : s.AfterChars strict text) :
    (commandEffect (.decPush c) s).AfterChars strict (text ++ [c]) ∧
    (validChar c = false ∧ strict = false ∧ commandResponse (.decPush c) s = Response.zero ∨
      (validChar c = true ∨ strict = true) ∧
        ((acceptedChars strict text).length % 8 < 7 ∧ commandResponse (.decPush c) s = Response.zero ∨
          (acceptedChars strict text).length % 8 = 7 ∧
            commandResponse (.decPush c) s = callResponse (openGroup (acceptedChars strict text) ++ [c]))) := by
  obtain ⟨hgroup, hstrict⟩ := h
  have hlen := openGroup_length (acceptedChars strict text)
  by_cases hc : validChar c = true ∨ strict = true
  · rw [State.AfterChars, acceptedChars_append_of_accepted text hc, commandEffect_decPush_strict]
    have hroom : (acceptedChars strict text).length % 8 < 7 ∨ (acceptedChars strict text).length % 8 = 7 := by omega
    rcases hroom with hopen | hfull
    · obtain ⟨heff, hresp⟩ := decPush_of_open hgroup (by omega) (by rwa [hstrict])
      rw [(parts_append_of_open c hopen).2]
      exact ⟨⟨heff, hstrict⟩, .inr ⟨hc, .inl ⟨hopen, hresp⟩⟩⟩
    · obtain ⟨heff, hresp⟩ := decPush_of_full hgroup (by omega) (by rwa [hstrict])
      rw [(parts_append_of_full c hfull).2]
      exact ⟨⟨heff, hstrict⟩, .inr ⟨hc, .inr ⟨hfull, hresp⟩⟩⟩
  · obtain ⟨hv, hs⟩ : validChar c = false ∧ strict = false := by simpa using hc
    obtain ⟨heff, hresp⟩ := decPush_of_skipped hgroup (by omega) hv (hstrict.trans hs)
    rw [State.AfterChars, acceptedChars_append_of_skipped text hv hs, heff]
    exact ⟨⟨hgroup, hstrict⟩, .inl ⟨hv, hs, hresp⟩⟩

theorem runEffect_decPush_append (text : List Octet) (c : Octet) (s : State) :
    runEffect ((text ++ [c]).map .decPush) s = commandEffect (.decPush c) (runEffect (text.map .decPush) s) := by
  rw [List.map_append, runEffect_append]; rfl

theorem runResponses_decPush_append (text : List Octet) (c : Octet) (s : State) :
    runResponses ((text ++ [c]).map .decPush) s =
      runResponses (text.map .decPush) s ++ [commandResponse (.decPush c) (runEffect (text.map .decPush) s)] := by
  rw [List.map_append, runResponses_append]; rfl

theorem decPushes_afterChars (text : List Octet) {s : State} (h : s.DecCleared) :
    (runEffect (text.map .decPush) s).AfterChars s.strict text := by
  induction text using List.reverseRecOn with
  | nil =>
    refine ⟨?_, rfl⟩
    rw [openGroup_of_length_mod rfl]; exact holdsGroup_nil_iff.2 h
  | append_singleton text c ih =>
    rw [runEffect_decPush_append]
    exact (decPush_cases c ih).1

/-- A call is its pushes and the closing of the group they leave (R175). -/
theorem decodeCall_responses (text : List Octet) (arg : Octet) {s : State} (h : s.DecCleared) :
    runResponses (text.map .decPush ++ [.decFin arg]) s =
      runResponses (text.map .decPush) s ++ [callResponse (openGroup (acceptedChars s.strict text))] := by
  rw [runResponses_append, ← closeResponse_of_holdsGroup (decPushes_afterChars text h).1]; rfl

theorem decodeCall_decCleared (text : List Octet) (arg : Octet) (s : State) :
    (runEffect (text.map .decPush ++ [.decFin arg]) s).DecCleared := by
  rw [runEffect_append]; exact ⟨rfl, rfl, rfl, rfl⟩

/-! ### Calls without a poisoned group -/

theorem callResponse_of_valid {group : List Octet} (hlen : group.length ≤ 8) (h : group.all validChar = true) :
    (callResponse group).burst = bytesOf (symbolValues group) ∧ (callResponse group).err = false := by
  obtain ⟨hburst, herr⟩ := callResponse_spec hlen
  rw [hburst, herr, decCall, if_pos h]
  exact ⟨rfl, rfl⟩

/-- `Bytes` may be cut between two windows of valid characters. -/
theorem bytesOf_symbolValues_append {x : List Octet} (y : List Octet) (hvalid : x.all validChar = true)
    (hlen : x.length % 8 = 0) :
    bytesOf (symbolValues (x ++ y)) = bytesOf (symbolValues x) ++ bytesOf (symbolValues y) := by
  rw [symbolValues_append, bytesOf_append _ (by rwa [symbolValues_length_of_valid hvalid])]

theorem bytesOf_nil : bytesOf [] = [] := rfl

theorem all_validChar_parts {text : List Octet} (h : text.all validChar = true) :
    (closedPart text).all validChar = true ∧ (openGroup text).all validChar = true := by
  rwa [← closedPart_append_openGroup text, List.all_append, Bool.and_eq_true] at h

/-- Where no accepted character poisons, the pushes emit the bytes of the full windows, and report no error. -/
theorem decPushes_of_valid (text : List Octet) {s : State} (h : s.DecCleared)
    (hvalid : (acceptedChars s.strict text).all validChar = true) :
    (runResponses (text.map .decPush) s).flatMap Response.burst =
        bytesOf (symbolValues (closedPart (acceptedChars s.strict text))) ∧
      ∀ r ∈ runResponses (text.map .decPush) s, r.err = false := by
  induction text using List.reverseRecOn with
  | nil =>
    rw [closedPart_of_length_mod rfl]
    exact ⟨bytesOf_nil.symm, nofun⟩
  | append_singleton text c ih =>
    have hafter := decPushes_afterChars text h
    rw [runResponses_decPush_append, List.flatMap_append, List.forall_mem_append, List.forall_mem_singleton,
      List.flatMap_singleton]
    rcases decPush_cases c hafter with ⟨-, ⟨hv, hs, hresp⟩ | ⟨hc, hcase⟩⟩
    · rw [acceptedChars_append_of_skipped text hv hs] at hvalid ⊢
      obtain ⟨ihBursts, ihErr⟩ := ih hvalid
      rw [hresp, ihBursts, burst_zero, List.append_nil]
      exact ⟨rfl, ihErr, rfl⟩
    · rw [acceptedChars_append_of_accepted text hc] at hvalid ⊢
      obtain ⟨hbefore, hv⟩ : (acceptedChars s.strict text).all validChar = true ∧ validChar c = true := by
        simpa using hvalid
      obtain ⟨ihBursts, ihErr⟩ := ih hbefore
      rcases hcase with ⟨hopen, hresp⟩ | ⟨hfull, hresp⟩
      · rw [hresp, ihBursts, burst_zero, List.append_nil, (parts_append_of_open c hopen).1]
        exact ⟨rfl, ihErr, rfl⟩
      · obtain ⟨hclosed, hopen⟩ := all_validChar_parts hbefore
        have hlen : (openGroup (acceptedChars s.strict text) ++ [c]).length ≤ 8 := by
          rw [List.length_append, List.length_singleton, openGroup_length]; omega
        have hwindow : (openGroup (acceptedChars s.strict text) ++ [c]).all validChar = true := by
          simp only [List.all_append, hopen, List.all_cons, hv, List.all_nil, Bool.and_self]
        obtain ⟨hburst, herr⟩ := callResponse_of_valid hlen hwindow
        rw [hresp, ihBursts, hburst, (parts_append_of_full c hfull).1,
          bytesOf_symbolValues_append _ hclosed (closedPart_length_mod _)]
        exact ⟨rfl, ihErr, herr⟩

/-- Where no accepted character poisons, a call emits the bytes of the accepted characters, and reports no error. -/
theorem decodeCall_of_valid (text : List Octet) (arg : Octet) {s : State} (h : s.DecCleared)
    (hvalid : (acceptedChars s.strict text).all validChar = true) :
    (runResponses (text.map .decPush ++ [.decFin arg]) s).flatMap Response.burst =
        bytesOf (symbolValues (acceptedChars s.strict text)) ∧
      ∀ r ∈ runResponses (text.map .decPush ++ [.decFin arg]) s, r.err = false := by
  obtain ⟨hbursts, hnoErr⟩ := decPushes_of_valid text h hvalid
  obtain ⟨hclosed, hopen⟩ := all_validChar_parts hvalid
  have hlen := openGroup_length (acceptedChars s.strict text)
  obtain ⟨hburst, herr⟩ := callResponse_of_valid (by omega) hopen
  rw [decodeCall_responses text arg h, List.flatMap_append, List.forall_mem_append, List.forall_mem_singleton,
    List.flatMap_singleton, hbursts, hburst, ← bytesOf_symbolValues_append _ hclosed (closedPart_length_mod _),
    closedPart_append_openGroup]
  exact ⟨rfl, hnoErr, herr⟩

/-- In filter mode no accepted character poisons, whatever the text (R182). -/
theorem decodeCall_filter (text : List Octet) (arg : Octet) {s : State} (h : s.DecCleared) (hs : s.strict = false) :
    (runResponses (text.map .decPush ++ [.decFin arg]) s).flatMap Response.burst = bytesOf (symbolValues text) ∧
      ∀ r ∈ runResponses (text.map .decPush ++ [.decFin arg]) s, r.err = false := by
  have haccepted : acceptedChars s.strict text = text.filter validChar := by rw [hs, acceptedChars_filter]
  have hcall := decodeCall_of_valid text arg h (by rw [haccepted]; simp)
  rwa [haccepted, symbolValues_filter_validChar] at hcall

/-- Settles O49: the open group is what the full windows of the valid characters leave, so the windows' bytes and those
of `DEC.FIN` are `Bytes` cut at multiples of 8 symbols. -/
theorem filterModeComputesBytes : Obligations.FilterModeComputesBytes := by
  intro text arg s h hs
  obtain ⟨hbursts, hnoErr⟩ := decodeCall_filter text arg h hs
  exact ⟨_, _, runCommands_eq _ s, rfl, by simp [runResponses_length], hbursts, hnoErr,
    decodeCall_decCleared text arg s⟩

/-- Settles O51: the encoder's call gives `Enc` of the bytes, and the bytes of its valid characters are those bytes. -/
theorem filterModeRoundTrip : Obligations.FilterModeRoundTrip := by
  intro bytes a b s u henc hdec hu
  refine ⟨_, _, _, _, runCommands_eq _ s, rfl, runCommands_eq _ u, rfl, ?_⟩
  rw [encodeCall_bursts bytes a henc]
  obtain ⟨hbursts, hnoErr⟩ := decodeCall_filter (encText bytes) b hdec hu
  exact ⟨hbursts.trans (bytesOf_symbolValues_encText bytes), hnoErr⟩

/-! ### Strict mode -/

/-- What the `k`-th push of a text is answered by in strict mode: `DecCall` of its window where it is the 8th character,
nothing otherwise (R183). -/
def pushResponse (text : List Octet) (k : Nat) : Response :=
  if k % 8 = 7 then callResponse (window text (k / 8)) else Response.zero

theorem pushResponse_append {text : List Octet} {k : Nat} (y : List Octet) (hk : k < text.length) :
    pushResponse (text ++ y) k = pushResponse text k := by
  unfold pushResponse
  split
  · rw [window_append y (by omega)]
  · rfl

/-- Every push of a text in strict mode (R183). -/
theorem decPushes_strict (text : List Octet) {s : State} (h : s.DecCleared) (hs : s.strict = true) :
    runResponses (text.map .decPush) s = (List.range text.length).map (pushResponse text) := by
  induction text using List.reverseRecOn with
  | nil => rfl
  | append_singleton text c ih =>
    have hafter := decPushes_afterChars text h
    have hold : (List.range text.length).map (pushResponse (text ++ [c])) =
        (List.range text.length).map (pushResponse text) :=
      List.map_congr_left fun k hk => pushResponse_append [c] (List.mem_range.1 hk)
    rw [runResponses_decPush_append, ih, List.length_append, List.length_singleton, List.range_succ, List.map_append,
      hold, List.map_singleton]
    congr 2
    rw [hs] at hafter
    obtain ⟨-, hcase⟩ := decPush_cases c hafter
    rw [acceptedChars_strict] at hcase
    rcases hcase with ⟨-, hs', -⟩ | ⟨-, ⟨hopen, hresp⟩ | ⟨hfull, hresp⟩⟩
    · cases hs'
    · rw [hresp, pushResponse, if_neg (by omega)]
    · rw [hresp, pushResponse, if_pos hfull, window_last_of_full c hfull]

theorem decodeCall_strict (text : List Octet) (arg : Octet) {s : State} (h : s.DecCleared) (hs : s.strict = true) :
    runResponses (text.map .decPush ++ [.decFin arg]) s =
      (List.range text.length).map (pushResponse text) ++ [callResponse (window text (text.length / 8))] := by
  rw [decodeCall_responses text arg h, decPushes_strict text h hs, hs, acceptedChars_strict, window_last]

/-- Settles O50: a push that fills its window closes it, and `DEC.FIN` the last one. -/
theorem strictModeDecodesByWindows : Obligations.StrictModeDecodesByWindows := by
  intro text arg s h hs
  refine ⟨_, _, runCommands_eq _ s, rfl, by simp [runResponses_length], decodeCall_decCleared text arg s,
    fun k r hr => ?_⟩
  rw [decodeCall_strict text arg h hs] at hr
  have hwindow := callResponse_spec (window_length_le text (k / 8))
  have hlen : ((List.range text.length).map (pushResponse text)).length = text.length := by simp
  rcases Nat.lt_trichotomy k text.length with hk | rfl | hk
  · rw [List.getElem?_append_left (by omega), List.getElem?_map, List.getElem?_range hk] at hr
    obtain rfl := Option.some.inj hr
    unfold pushResponse
    by_cases hlast : k % 8 = 7
    · rw [if_pos hlast, if_pos (.inl hlast)]; exact hwindow
    · rw [if_neg hlast, if_neg (by omega), burst_zero]; exact ⟨rfl, rfl⟩
  · rw [List.getElem?_append_right (by omega), hlen, Nat.sub_self] at hr
    obtain rfl := Option.some.inj hr
    rw [if_pos (.inr rfl)]; exact hwindow
  · rw [List.getElem?_eq_none (by rw [List.length_append, hlen, List.length_singleton]; omega)] at hr
    cases hr

/-- A call of one window that fails: one error, on the command of its 8th character (R183). -/
theorem decodeCall_strict_of_invalid_window {text : List Octet} (arg : Octet) {s : State} (h : s.DecCleared)
    (hs : s.strict = true) (hlen : text.length = 8) (hinvalid : text.all validChar = false) :
    runResponses (text.map .decPush ++ [.decFin arg]) s =
      List.replicate 7 Response.zero ++ [raiseError .decodeSymbolError Response.zero, Response.zero] := by
  have hfull : window text 0 = text := List.take_of_length_le (by rw [Nat.mul_zero, List.drop_zero]; omega)
  have hfails : callResponse text = raiseError .decodeSymbolError Response.zero := by
    rw [callResponse, if_neg (by simp [hinvalid])]
  have hrest : window text 1 = [] := by rw [window, List.drop_of_length_le (by omega), List.take_nil]
  have hpushes : (List.range 8).map (pushResponse text) =
      List.replicate 7 Response.zero ++ [callResponse (window text 0)] := rfl
  rw [decodeCall_strict text arg h hs, hlen, hrest, hpushes, hfull, hfails]
  rfl

/-- A whole number of windows of valid characters leaves the decoder cleared, its bytes emitted and no error. -/
theorem decPushes_strict_of_whole {text : List Octet} {s : State} (h : s.DecCleared) (hs : s.strict = true)
    (hlen : text.length % 8 = 0) (hvalid : text.all validChar = true) :
    (runEffect (text.map .decPush) s).DecCleared ∧ (runEffect (text.map .decPush) s).strict = true ∧
      (runResponses (text.map .decPush) s).flatMap Response.burst = bytesOf (symbolValues text) ∧
      ∀ r ∈ runResponses (text.map .decPush) s, r.err = false := by
  have haccepted : acceptedChars s.strict text = text := by rw [hs, acceptedChars_strict]
  obtain ⟨hgroup, hstrict⟩ := decPushes_afterChars text h
  obtain ⟨hbursts, hnoErr⟩ := decPushes_of_valid text h (by rwa [haccepted])
  rw [haccepted, openGroup_of_length_mod hlen] at hgroup
  rw [haccepted, closedPart_of_length_mod hlen] at hbursts
  exact ⟨holdsGroup_nil_iff.1 hgroup, hstrict.trans hs, hbursts, hnoErr⟩

/-- The text of 1 to 4 bytes is one window, which holds a `=` (R127, R186). -/
theorem encText_of_tail {bytes : List Octet} (hpos : bytes.length ≠ 0) (hlt : bytes.length < 5) :
    (encText bytes).length = 8 ∧ (encText bytes).all validChar = false := by
  have hpad : padChar ∈ encText bytes := List.mem_of_getElem? (encText_getElem?_symbolCount (by omega))
  refine ⟨by rw [encText_length]; omega, ?_⟩
  rw [List.all_eq_false]
  exact ⟨padChar, hpad, by decide⟩

/-- In strict mode the text of at most 4 bytes gives no byte, and one error unless it is empty (R186). -/
theorem decodeCall_strict_tail {bytes : List Octet} (arg : Octet) {s : State} (h : s.DecCleared)
    (hs : s.strict = true) (hlt : bytes.length < 5) :
    (runResponses ((encText bytes).map .decPush ++ [.decFin arg]) s).flatMap Response.burst = [] ∧
      ((runResponses ((encText bytes).map .decPush ++ [.decFin arg]) s).filter fun r => r.err).length =
        if bytes.length = 0 then 0 else 1 := by
  by_cases hnil : bytes.length = 0
  · rw [if_pos hnil, List.length_eq_zero_iff.1 hnil, decodeCall_strict _ arg h hs]
    exact ⟨rfl, rfl⟩
  · obtain ⟨hlen, hinvalid⟩ := encText_of_tail hnil hlt
    rw [if_neg hnil, decodeCall_strict_of_invalid_window arg h hs hlen hinvalid]
    exact ⟨rfl, rfl⟩

/-- Settles O52: the text of the whole blocks is whole windows of valid characters, and that of the bytes behind them is
empty or one window with a `=`. -/
theorem strictModeLosesThePaddedTail : Obligations.StrictModeLosesThePaddedTail := by
  intro bytes arg u h hu
  refine ⟨_, _, runCommands_eq _ u, rfl, ?_⟩
  obtain ⟨blocks, tail, hbytes, hblocks, htail⟩ : ∃ blocks tail, bytes = blocks ++ tail ∧
      blocks.length = 5 * (bytes.length / 5) ∧ tail.length = bytes.length % 5 :=
    ⟨bytes.take (5 * (bytes.length / 5)), bytes.drop (5 * (bytes.length / 5)), (List.take_append_drop _ _).symm,
      by rw [List.length_take]; omega, by rw [List.length_drop]; omega⟩
  have hwhole : blocks.length % 5 = 0 := by omega
  have htext : encText bytes = encText blocks ++ encText tail := by
    rw [hbytes, encText_append_of_length_mod_five _ hwhole]
  have hvalid : (encText blocks).all validChar = true := by
    rw [encText_of_length_mod_five hwhole]; exact all_validChar_fieldSymbols _
  obtain ⟨hclear, hstrict, hbursts, hnoErr⟩ :=
    decPushes_strict_of_whole h hu (by rw [encText_length]; omega) hvalid
  obtain ⟨htailBursts, htailErr⟩ := decodeCall_strict_tail arg hclear hstrict (bytes := tail) (by omega)
  rw [htext, List.map_append, List.append_assoc, runResponses_append, List.flatMap_append, List.filter_append,
    hbursts, htailBursts, bytesOf_symbolValues_encText, List.filter_eq_nil_iff.2 (by simpa using hnoErr),
    List.nil_append, htailErr, htail, List.append_nil]
  exact ⟨by rw [← hblocks, hbytes, List.take_left], rfl⟩

end Sys2Proof.Machine

/-! `DecodeSymbolError` (spec/60_exceptions.md R212, R213, R215): reported by `Close` alone, of a poisoned group, and
only strict mode poisons. -/

namespace Sys2Proof.Machine

/-- A step of a command appends `commandResponse`, so the response at the end is that one. -/
theorem eq_commandResponse_of_exec {i : Instr} {s t : State} {r : Response} (hexec : exec i s = .next t)
    (hrsps : t.rsps = s.rsps ++ [r]) : r = commandResponse i s := by
  obtain ⟨u, hu, hursps, -⟩ := exec_responds i s
  obtain rfl : t = u := Host.Outcome.next.inj (hexec.symm.trans hu)
  exact List.singleton_inj.1 (List.append_cancel_left (hrsps.symm.trans hursps))

theorem closeResponse_err (s : State) : (closeResponse s).err = s.dpois := by
  rcases closeResponse_cases s with ⟨hp, h⟩ | ⟨hp, h⟩ <;> rw [h, hp] <;> rfl

/-- In the states of R32 a poisoned group is a group of strict mode. -/
theorem strict_of_poisoned {s : State} (h : s.DecInv) (hp : s.dpois = true) : s.strict = true := by
  obtain ⟨-, -, -, -, -, hfilter⟩ := h
  cases hs : s.strict with
  | true => rfl
  | false => cases hp.symm.trans (hfilter hs)

/-- A character leaves a poisoned group in strict mode only: filter mode skips an invalid one (R171 (b), R172). -/
theorem strict_of_acceptChar_poisoned {c : Octet} {s : State} (h : s.DecInv) (hp : (acceptChar c s).dpois = true) :
    s.strict = true := by
  rw [acceptChar_dpois, Bool.or_eq_true, Bool.and_eq_true] at hp
  rcases hp with hp | ⟨-, hs⟩
  · exact strict_of_poisoned h hp
  · exact hs

/-- A command that answers `err = 1` closes a poisoned group: all it does is clear the decoder and raise
`DecodeSymbolError` (R213). -/
theorem exec_eq_of_err {i : Instr} {s : State} (hinv : s.DecInv) (herr : (commandResponse i s).err = true) :
    ((∃ c, i = .decPush c) ∨ ∃ a, i = .decFin a) ∧ s.strict = true ∧
      exec i s = .next (s.clearDecoder.respond (raiseError .decodeSymbolError Response.zero)) := by
  cases i with
  | decPush c =>
    by_cases hfull : (acceptChar c s).dcnt.toNat = 8
    · rw [commandResponse, if_pos hfull, closeResponse_err] at herr
      exact ⟨.inl ⟨c, rfl⟩, strict_of_acceptChar_poisoned hinv herr,
        by rw [exec_decPush_of_full hfull, closeResponse_of_poisoned herr]⟩
    · rw [commandResponse, if_neg hfull] at herr
      cases herr
  | decFin a =>
    rw [commandResponse, closeResponse_err] at herr
    exact ⟨.inr ⟨a, rfl⟩, strict_of_poisoned hinv herr, by rw [← closeResponse_of_poisoned herr]; exact exec_eq _ s⟩
  | encPush _ | encFin _ | encClr _ => cases (encoder_reports_no_error rfl s).1.symm.trans herr
  | decClr _ | cls _ | decCfg _ => cases herr

/-- Settles O40: the command's whole effect is `clearDecoder` and the error raised on the all-zero response. -/
theorem decodeSymbolErrorOnlyInStrictMode : Obligations.DecodeSymbolErrorOnlyInStrictMode := by
  intro i s t r hinv hexec hrsps herr
  obtain rfl := eq_commandResponse_of_exec hexec hrsps
  obtain ⟨hcommand, hstrict, hclose⟩ := exec_eq_of_err hinv herr
  obtain rfl := Host.Outcome.next.inj (hexec.symm.trans hclose)
  rw [← eq_commandResponse_of_exec hclose rfl]
  exact ⟨hcommand, hstrict, rfl, rfl, ⟨rfl, rfl, rfl, rfl⟩, rfl, rfl, rfl, rfl⟩

end Sys2Proof.Machine

/-! The reset event (spec/70_reset_and_hazards.md R250). -/

namespace Sys2Proof.Machine

/-- The reset event is answered in every state, unlike a command or a read: `resetSeen` is not asked. -/
theorem step_of_reset {s : State} {rest : List HostEvent} (hin : s.inputs = .reset :: rest) :
    step s = .next (applyReset (s.advance rest)) :=
  step_of_nextAction_become (nextAction_of_inputs_cons hin)

/-- Settles O10: the step ends in `applyReset`, whose registers are those of `State.reset`, all 0
(`resetClearsEveryElement`); only the host's later events are kept. -/
theorem resetEventSetsTheResetState : Obligations.ResetEventSetsTheResetState := by
  intro s rest hin
  obtain ⟨heacc, hebits, hesym, hdacc, hdbits, hdcnt, hdpois, hstrict⟩ := resetClearsEveryElement
  exact ⟨applyReset (s.advance rest), step_of_reset hin, heacc, hebits, hesym, hdacc, hdbits, hdcnt, hdpois, hstrict,
    rfl, rfl, rfl⟩

end Sys2Proof.Machine
